-- ==== Sys2Proof/Word.lean ====
section
/-! DEFINITION. The word types of the block, each of one fixed width. Bit 0 is the least
significant bit of every word (00_scope.md R12) and every quantity is unsigned (R12, R13). -/

namespace Sys2Proof

/-- A 16-bit schedule word (30_encoding.md R70). -/
abbrev ScheduleWord := BitVec 16

/-- A 16-bit unsigned command operand, deliberately as wide as the schedule word (R77). -/
abbrev Operand := BitVec 16

/-- An 8-bit callback identifier (00_scope.md R10). -/
abbrev CallbackId := BitVec 8

/-- An 8-bit task handle: the ordinal of a registration (00_scope.md R11). -/
abbrev TaskHandle := BitVec 8

/-- A 64-bit command word, as the command port carries it (30_encoding.md R75). -/
abbrev CommandWord := BitVec 64

/-- A value in deadline units, two per time-slot unit (10_state.md R24, 00_scope.md R8). -/
abbrev Deadline := BitVec 8

end Sys2Proof
end

