-- ==== Sys2Proof/Config.lean ====
section
/-! DEFINITION. What is fixed for a machine: the constants of 00_scope.md R8 and 30_encoding.md R74,
and the type of the one parameter the spec leaves open, the capacity `N` (00_scope.md R9). The
capacity of a machine is a field of its State, so that statements about every state hold for every
`N`. No value of this spec is left free, so there is no opaque constant here. -/

namespace Sys2Proof.Config

/-- The capacity `N`, with `1 <= N <= 255` (00_scope.md R9). -/
abbrev Capacity := { n : Nat // 1 ≤ n ∧ n ≤ 255 }

/-- "the default, used by every example in 95_test_vectors.md, is N = 10" (R9).
Not normative: only `State.reset` uses it. -/
def defaultCapacity : Capacity := ⟨10, by decide⟩

/-- Frames per period (R8). -/
abbrev nFrames : Nat := 5

/-- Periods (R8). -/
abbrev nPeriods : Nat := 4

/-- The frame-advance task's time slot, `FA_TIME` (R8). -/
def faTime : Operand := 127

/-- `ALL_FRAMES`: all 5 bits set (R8, R74). -/
def allFrames : Operand := 0x1F

/-- `ALL_PERIODS`: all 4 bits set (R8, R74). -/
def allPeriods : Operand := 0xF

/-- The time scaling factor, `SCALE`: deadline units per time-slot unit (R8). -/
def scale : Deadline := 2

/-- The deadline base, `DL_BASE` (R8). -/
def dlBase : Deadline := 255

/-- The callback identifier of the frame-advance action, `CB_FADV` (00_scope.md R10). -/
def cbFadv : CallbackId := 0

/-- The handle of the frame-advance task, always 0 (00_scope.md R11). -/
def faHandle : TaskHandle := 0

/-- The fault code `SCAN_EXHAUSTED` (60_exceptions.md R191). -/
def scanExhausted : BitVec 2 := 1

/-- The mask constants of 30_encoding.md R74, `FRAMEn = 1 << n`. -/
def frameBit (n : Fin 5) : Operand := 1 <<< n.val

/-- The mask constants of 30_encoding.md R74, `PERIODn = 1 << n`. -/
def periodBit (n : Fin 4) : Operand := 1 <<< n.val

end Sys2Proof.Config
end

