-- ==== Sys2Proof/Syntax.lean ====
section
/-! DEFINITION. The thirteen commands of the block (30_encoding.md R76): one constructor per row of
spec/opcode_table.json, operands in the order of the listing (R90). The frame-advance
micro-operation FADV has no opcode and so no constructor (R76). -/

namespace Sys2Proof

/-- A command. Every operand is an unsigned 16-bit value, except handle and callback identifier,
which are 8 bits wide (30_encoding.md R77). -/
inductive Instr where
  | init
  | reg (time frameMask periodMask : Operand) (cb : CallbackId)
  | sett (handle : TaskHandle) (value : Operand)
  | setf (handle : TaskHandle) (value : Operand)
  | setp (handle : TaskHandle) (value : Operand)
  | pub
  | tick
  | enct (word : ScheduleWord) (value : Operand)
  | encf (word : ScheduleWord) (value : Operand)
  | encp (word : ScheduleWord) (value : Operand)
  | dect (word : ScheduleWord)
  | decf (word : ScheduleWord)
  | decp (word : ScheduleWord)
  deriving DecidableEq, Repr

/-- The five command formats (30_encoding.md R77). -/
inductive Format where
  | f0
  | fr
  | fs
  | fe
  | fd
  deriving DecidableEq, Repr

/-- Why a command word is illegal (30_encoding.md R79). -/
inductive DecodeError where
  /-- `op` is 0x0, 0xE or 0xF. -/
  | reservedOpcode (op : BitVec 4)
  /-- The reserved field `rsv` of an assigned opcode is not zero. -/
  | reservedFieldSet (rsv : BitVec 4)
  /-- A field that the format does not use is not zero. -/
  | unusedOperandSet (format : Format)
  deriving DecidableEq, Repr

/-- The model's two agents (60_exceptions.md R202). -/
inductive Agent where
  /-- The interrupt context, whose only step is TICK. -/
  | dispatcher
  /-- The mutator context, whose steps are the other twelve commands. -/
  | mutator
  deriving DecidableEq, Repr

/-- Which agent issues a command (60_exceptions.md R201, R202). -/
def Instr.agent : Instr → Agent
  | .init => .mutator
  | .reg _ _ _ _ => .mutator
  | .sett _ _ => .mutator
  | .setf _ _ => .mutator
  | .setp _ _ => .mutator
  | .pub => .mutator
  | .tick => .dispatcher
  | .enct _ _ => .mutator
  | .encf _ _ => .mutator
  | .encp _ _ => .mutator
  | .dect _ => .mutator
  | .decf _ => .mutator
  | .decp _ => .mutator

/-- The six codec commands, which read no state and write no state (40_codec.md R100). -/
def Instr.isCodec : Instr → Bool
  | .init => false
  | .reg _ _ _ _ => false
  | .sett _ _ => false
  | .setf _ _ => false
  | .setp _ _ => false
  | .pub => false
  | .tick => false
  | .enct _ _ => true
  | .encf _ _ => true
  | .encp _ _ => true
  | .dect _ => true
  | .decf _ => true
  | .decp _ => true

/-- The mnemonics of 30_encoding.md R76. -/
def Instr.mnemonic : Instr → String
  | .init => "INIT"
  | .reg _ _ _ _ => "REG"
  | .sett _ _ => "SETT"
  | .setf _ _ => "SETF"
  | .setp _ _ => "SETP"
  | .pub => "PUB"
  | .tick => "TICK"
  | .enct _ _ => "ENCT"
  | .encf _ _ => "ENCF"
  | .encp _ _ => "ENCP"
  | .dect _ => "DECT"
  | .decf _ => "DECF"
  | .decp _ => "DECP"

/-- The operands of a listing line, in the order of 30_encoding.md R90. -/
def Instr.operands : Instr → List Nat
  | .init => []
  | .reg t f p cb => [t.toNat, f.toNat, p.toNat, cb.toNat]
  | .sett h v => [h.toNat, v.toNat]
  | .setf h v => [h.toNat, v.toNat]
  | .setp h v => [h.toNat, v.toNat]
  | .pub => []
  | .tick => []
  | .enct w v => [w.toNat, v.toNat]
  | .encf w v => [w.toNat, v.toNat]
  | .encp w v => [w.toNat, v.toNat]
  | .dect w => [w.toNat]
  | .decf w => [w.toNat]
  | .decp w => [w.toNat]

/-- One listing line, `MNEMONIC operand, operand, ...`, numerals in decimal (30_encoding.md R90). -/
def Instr.listing (i : Instr) : String :=
  if i.operands.isEmpty then i.mnemonic
  else i.mnemonic ++ " " ++ ", ".intercalate (i.operands.map toString)

end Sys2Proof
end

