-- ==== Sys2Proof/WellFormed.lean ====
section
/-! DEFINITION. Well-formedness. Every `Instr` is encodable, because each operand has exactly the
width its field has, so what can be ill-formed is a command WORD (30_encoding.md R79), and what a
caller can get wrong is an operand's documented RANGE (R80), which the block does not check.
The word check is spelled field by field from R75, in numbers, and independently of the match and
mask table of R77 that Decode.lean uses. -/

namespace Sys2Proof

/-- `op`, bits 63:60 (R75), as a number. -/
def CommandWord.opNumber (c : CommandWord) : Nat := c.toNat / 2 ^ 60

/-- The opcode is one of the thirteen assigned, 0x1 to 0xD (R76). -/
def CommandWord.opAssigned (c : CommandWord) : Bool :=
  decide (1 ≤ CommandWord.opNumber c ∧ CommandWord.opNumber c ≤ 13)

/-- `rsv`, bits 59:56, "must be 0" (R75). -/
def CommandWord.rsvZero (c : CommandWord) : Bool := decide (c.toNat / 2 ^ 56 % 2 ^ 4 = 0)

/-- `k`, bits 55:48: used by REG and the setters, "else must be 0" (R75). -/
def CommandWord.kZeroUnlessUsed (c : CommandWord) : Bool :=
  decide (2 ≤ CommandWord.opNumber c ∧ CommandWord.opNumber c ≤ 5) ||
    decide (c.toNat / 2 ^ 48 % 2 ^ 8 = 0)

/-- `a2`, bits 47:32: used by REG only, "else must be 0" (R75). -/
def CommandWord.a2ZeroUnlessUsed (c : CommandWord) : Bool :=
  decide (CommandWord.opNumber c = 2) || decide (c.toNat / 2 ^ 32 % 2 ^ 16 = 0)

/-- `a1`, bits 31:16: used by REG and the encoders, "else must be 0" (R75). -/
def CommandWord.a1ZeroUnlessUsed (c : CommandWord) : Bool :=
  decide (CommandWord.opNumber c = 2) ||
    decide (8 ≤ CommandWord.opNumber c ∧ CommandWord.opNumber c ≤ 10) ||
    decide (c.toNat / 2 ^ 16 % 2 ^ 16 = 0)

/-- `a0`, bits 15:0: unused by INIT, PUB and TICK, "else must be 0" (R75). -/
def CommandWord.a0ZeroUnlessUsed (c : CommandWord) : Bool :=
  !(decide (CommandWord.opNumber c = 1 ∨ CommandWord.opNumber c = 6 ∨ CommandWord.opNumber c = 7)) ||
    decide (c.toNat % 2 ^ 16 = 0)

/-- A command word is legal exactly when its opcode is assigned and every reserved or unused field
is zero (R79). -/
def CommandWord.wellFormed (c : CommandWord) : Bool :=
  CommandWord.opAssigned c && CommandWord.rsvZero c && CommandWord.kZeroUnlessUsed c &&
    CommandWord.a2ZeroUnlessUsed c && CommandWord.a1ZeroUnlessUsed c &&
    CommandWord.a0ZeroUnlessUsed c

/-- The ranges a caller must respect and the block does not check (R80, 60_exceptions.md R193): time
in [0, 127], frame mask in [0, 31], period mask in [0, 15]. Outside them the command is still legal
and its effect is the exact spill of 40_codec.md R108. -/
def Instr.inDocumentedRange : Instr → Bool
  | .init => true
  | .reg t f p _ => decide (t.toNat ≤ 127) && decide (f.toNat ≤ 31) && decide (p.toNat ≤ 15)
  | .sett _ v => decide (v.toNat ≤ 127)
  | .setf _ v => decide (v.toNat ≤ 31)
  | .setp _ v => decide (v.toNat ≤ 15)
  | .pub => true
  | .tick => true
  | .enct _ v => decide (v.toNat ≤ 127)
  | .encf _ v => decide (v.toNat ≤ 31)
  | .encp _ v => decide (v.toNat ≤ 15)
  | .dect _ => true
  | .decf _ => true
  | .decp _ => true

end Sys2Proof
end

