-- ==== Sys2Proof/Decode.lean ====
section
/-! DEFINITION. The decoder of command words, total and rejecting by name, and the encoder
(30_encoding.md R75 to R79). A command is one 64-bit word and the port has no byte order (20_memory.md
R52), so the decoder reads the word as it stands. -/

namespace Sys2Proof

/-- `op`, bits 63:60 (R75). -/
def opField (c : CommandWord) : BitVec 4 := c.extractLsb' 60 4

/-- `rsv`, bits 59:56 (R75). -/
def rsvField (c : CommandWord) : BitVec 4 := c.extractLsb' 56 4

/-- `k`, bits 55:48: callback identifier or task handle (R75). -/
def kField (c : CommandWord) : BitVec 8 := c.extractLsb' 48 8

/-- `a2`, bits 47:32: third operand (R75). -/
def a2Field (c : CommandWord) : Operand := c.extractLsb' 32 16

/-- `a1`, bits 31:16: second operand (R75). -/
def a1Field (c : CommandWord) : Operand := c.extractLsb' 16 16

/-- `a0`, bits 15:0: first operand (R75). -/
def a0Field (c : CommandWord) : Operand := c.extractLsb' 0 16

/-- The masks of the five formats (R77): the bits outside the mask are the operands. -/
def Format.mask : Format → CommandWord
  | .f0 => 0xFFFFFFFFFFFFFFFF
  | .fr => 0xFF00000000000000
  | .fs => 0xFF00FFFFFFFF0000
  | .fe => 0xFFFFFFFF00000000
  | .fd => 0xFFFFFFFFFFFF0000

/-- `op << 60` (R77). -/
def matchValue (op : BitVec 4) : CommandWord := op.setWidth 64 <<< 60

/-- `C & mask == match` for the format (R77), else the name of what is not zero (R79). -/
def checkFormat (f : Format) (c : CommandWord) (i : Instr) : Except DecodeError Instr :=
  if c &&& f.mask = matchValue (opField c) then .ok i
  else if rsvField c ≠ 0 then .error (.reservedFieldSet (rsvField c))
  else .error (.unusedOperandSet f)

/-- The opcode map (R76) with the operands of each format (R77). -/
def decode (c : CommandWord) : Except DecodeError Instr :=
  match (opField c).toNat with
  | 0x1 => checkFormat .f0 c .init
  | 0x2 => checkFormat .fr c (.reg (a0Field c) (a1Field c) (a2Field c) (kField c))
  | 0x3 => checkFormat .fs c (.sett (kField c) (a0Field c))
  | 0x4 => checkFormat .fs c (.setf (kField c) (a0Field c))
  | 0x5 => checkFormat .fs c (.setp (kField c) (a0Field c))
  | 0x6 => checkFormat .f0 c .pub
  | 0x7 => checkFormat .f0 c .tick
  | 0x8 => checkFormat .fe c (.enct (a0Field c) (a1Field c))
  | 0x9 => checkFormat .fe c (.encf (a0Field c) (a1Field c))
  | 0xA => checkFormat .fe c (.encp (a0Field c) (a1Field c))
  | 0xB => checkFormat .fd c (.dect (a0Field c))
  | 0xC => checkFormat .fd c (.decf (a0Field c))
  | 0xD => checkFormat .fd c (.decp (a0Field c))
  | _ => .error (.reservedOpcode (opField c))

/-- The pattern of a command word, most significant bit first: `oooo0000 kkkkkkkk`, `a2`, `a1`, `a0`
(R75). -/
def packWord (op : BitVec 4) (k : BitVec 8) (a2 a1 a0 : Operand) : CommandWord :=
  op ++ 0#4 ++ k ++ a2 ++ a1 ++ a0

/-- The word of a command (R75 to R77). -/
def encode : Instr → CommandWord
  | .init => packWord 0x1 0 0 0 0
  | .reg t f p cb => packWord 0x2 cb p f t
  | .sett h v => packWord 0x3 h 0 0 v
  | .setf h v => packWord 0x4 h 0 0 v
  | .setp h v => packWord 0x5 h 0 0 v
  | .pub => packWord 0x6 0 0 0 0
  | .tick => packWord 0x7 0 0 0 0
  | .enct w v => packWord 0x8 0 0 v w
  | .encf w v => packWord 0x9 0 0 v w
  | .encp w v => packWord 0xA 0 0 v w
  | .dect w => packWord 0xB 0 0 0 w
  | .decf w => packWord 0xC 0 0 0 w
  | .decp w => packWord 0xD 0 0 0 w

/-- The command word whose low `nbits` bits are those of `w` and whose other bits are zero. -/
def tableWord (nbits w : Nat) : CommandWord := BitVec.ofNat 64 (w % 2 ^ nbits)

/-- The command the decoder reads from a word numbered as spec/opcode_table.json numbers it. -/
def decodeTableWord (nbits w : Nat) : Option Instr :=
  match decode (tableWord nbits w) with
  | .ok i => some i
  | .error _ => none

end Sys2Proof
end

