-- ==== Sys2Proof/Machine/Operands.lean ====
section
/-! DEFINITION. The operand forms: the schedule word's fields (30_encoding.md R70 to R72), the schedule
codec's pure functions (40_codec.md R100 to R109) and the widening of operands (30_encoding.md R80).
No operand is sign-extended or validated. -/

namespace Sys2Proof.Machine

open Sys2Proof

/-- `TIME_MASK` (30_encoding.md R71). -/
def timeMask : ScheduleWord := 0x007F

/-- `FRAME_MASK` (R71). -/
def frameFieldMask : ScheduleWord := 0x0F80

/-- `PERIOD_MASK` (R71). -/
def periodFieldMask : ScheduleWord := 0xF000

/-- `time_slot(w) = w[6:0]` (R72). -/
def timeSlot (w : ScheduleWord) : BitVec 7 := w.extractLsb' 0 7

/-- `frame_mask(w) = w[11:7]` (R72). -/
def frameMask (w : ScheduleWord) : BitVec 5 := w.extractLsb' 7 5

/-- `period_mask(w) = w[15:12]` (R72). -/
def periodMask (w : ScheduleWord) : BitVec 4 := w.extractLsb' 12 4

/-- "masking out the field's bit range and OR-ing in the new value left-shifted to its offset", cut to
16 bits (30_encoding.md R80, 40_codec.md R101). -/
def encField (mask : ScheduleWord) (offset : Nat) (w : ScheduleWord) (v : Operand) : ScheduleWord :=
  (w &&& ~~~mask) ||| (v <<< offset)

/-- `ENCT` as a function (40_codec.md R101). -/
def encTime (w : ScheduleWord) (v : Operand) : ScheduleWord := encField timeMask 0 w v

/-- `ENCF` as a function (40_codec.md R102). -/
def encFrame (w : ScheduleWord) (v : Operand) : ScheduleWord := encField frameFieldMask 7 w v

/-- `ENCP` as a function (40_codec.md R103). -/
def encPeriod (w : ScheduleWord) (v : Operand) : ScheduleWord := encField periodFieldMask 12 w v

/-- `DECT` as a function: `zext_16(w[6:0])` (40_codec.md R104). -/
def decTime (w : ScheduleWord) : BitVec 16 := (timeSlot w).setWidth 16

/-- `DECF` as a function: `zext_16(w[11:7])` (40_codec.md R105). -/
def decFrame (w : ScheduleWord) : BitVec 16 := (frameMask w).setWidth 16

/-- `DECP` as a function: `zext_16(w[15:12])` (40_codec.md R106). -/
def decPeriod (w : ScheduleWord) : BitVec 16 := (periodMask w).setWidth 16

/-- The word a registration stores: time, then frame mask, then period mask, from the starting word 0
(43_registry_publish.md R161, 40_codec.md R109). -/
def registerWord (time frames periods : Operand) : ScheduleWord :=
  encPeriod (encFrame (encTime 0 time) frames) periods

/-- `t2 = 2 * zext_8(w[6:0])`, the slot in deadline units (30_encoding.md R80 (c)). -/
def doubledSlot (w : ScheduleWord) : Deadline := Config.scale * (timeSlot w).setWidth 8

/-- A handle in a response's value, zero-extended (30_encoding.md R78). -/
def handleValue (h : TaskHandle) : BitVec 16 := h.setWidth 16

end Sys2Proof.Machine
end

