-- ==== Sys2Proof/Machine/State.lean ====
section
/-! DEFINITION. All the state the spec gives the block (10_state.md R20 to R40), as plain data, and
the state after hardware reset (R38). An absent table entry, an empty latch and a deadline not yet
written are option values, as R25, R34 and 30_encoding.md R81 ask, so that the contents the spec
leaves unspecified do not exist. -/

namespace Sys2Proof.Machine

open Sys2Proof

/-- A valid entry of the active table (10_state.md R27); an empty slot is `none`. -/
structure ActiveEntry where
  word : ScheduleWord
  cb : CallbackId
  deriving DecidableEq, Repr

/-- A valid entry of the staging table (10_state.md R29); an empty slot is `none`. -/
structure StagingEntry where
  handle : TaskHandle
  word : ScheduleWord
  cb : CallbackId
  deriving DecidableEq, Repr

/-- The refusal reasons a response carries (60_exceptions.md R194). -/
inductive RefusalReason where
  | illegalEncoding
  | badHandle
  | badSequence
  | halted
  deriving DecidableEq, Repr

/-- The response to a command (30_encoding.md R78). -/
inductive Response where
  /-- The command was performed. -/
  | ok (value : BitVec 16)
  /-- REG found the staging table full and dropped the registration. -/
  | none
  /-- The command was not performed and changed no state. -/
  | refused (reason : RefusalReason)
  /-- This TICK raised the fatal fault. -/
  | fault (code : BitVec 2)
  deriving DecidableEq, Repr

/-- The events of the output trace (10_state.md R33). -/
inductive Event where
  /-- A request that callback `cb` run now. -/
  | fire (cb : CallbackId)
  /-- A write of `v` to the timer's next-deadline register. -/
  | writeDeadline (v : Deadline)
  /-- Enter the critical section. -/
  | maskTick
  /-- Leave the critical section. -/
  | unmaskTick
  /-- The fatal fault. -/
  | fault (code : BitVec 2)
  /-- The response of a command. -/
  | response (r : Response)
  deriving DecidableEq, Repr

/-- What the environment presents to the block: a command word on the command port, by the mutator
or (TICK) by the timer collaborator (92_eei_decisions.md D3), or the reset input
(70_reset_and_hazards.md R230). -/
inductive PortInput where
  | command (c : CommandWord)
  | rst
  deriving DecidableEq, Repr

/-- The whole state. -/
structure State where
  /-- `current_frame`, 0 to 4 (R20). -/
  currentFrame : Fin 5
  /-- `current_period`, 0 to 3 (R21). -/
  currentPeriod : Fin 4
  /-- `scan_position`, 0 to `N` (R23). -/
  scanPosition : Nat
  /-- `elapsed_frame_time`, 8 bits, in deadline units (R24). -/
  elapsedFrameTime : Deadline
  /-- `latched_task`: the callback identifier the last successful scan found (R25). -/
  latchedTask : Option CallbackId
  /-- The active table, `N` slots (R27). -/
  active : List (Option ActiveEntry)
  /-- The staging table, `N` slots (R29). -/
  staging : List (Option StagingEntry)
  /-- `next_handle`, 8 bits (R30). -/
  nextHandle : TaskHandle
  /-- `initialized` (R31). -/
  initialized : Bool
  /-- `fault`, sticky: the block is halted (R32). -/
  fault : Bool
  /-- `fault_code`, 2 bits (R32). -/
  faultCode : BitVec 2
  /-- `tick_mask`: 1 between MaskTick and UnmaskTick (R35). -/
  tickMask : Bool
  /-- `deadline_last`, kept to observe the timer's register; the block never reads it (R34). -/
  deadlineLast : Option Deadline
  /-- The output trace, oldest event first (R33). -/
  trace : List Event
  /-- The capacity `N`, a parameter of the machine that no step changes (R39, 00_scope.md R9). -/
  capacity : Config.Capacity
  /-- MODEL: what the environment will present, in the single total order of operations (R39,
  20_memory.md R61), next input first. -/
  port : List PortInput
  deriving DecidableEq, Repr

/-- Faults that stop the machine: there are none. The block's one fault, SCAN_EXHAUSTED, is taken as a
next state, because the spec gives that state exactly (42_dispatcher.md R134, 60_exceptions.md R204)
and what every later command answers in it (R195). Safe: no step ends here. -/
inductive Fault where
  deriving DecidableEq, Repr

/-- Refusals that stop the machine. The block's own REFUSED answers (60_exceptions.md R194) are
responses in the trace, not this. -/
inductive Refusal where
  /-- Raised only by an arm of exec for an instruction without a meaning; no arm raises it now. Safe:
  the model stops where the hardware goes on. -/
  | notModelled (mnemonic : String)
  deriving DecidableEq, Repr

/-- The state after hardware reset of a block of capacity `n` (R38, 70_reset_and_hazards.md R230),
with nothing presented on the port. -/
def State.resetOf (n : Config.Capacity) : State where
  currentFrame := 0
  currentPeriod := 0
  scanPosition := 0
  elapsedFrameTime := 0
  latchedTask := none
  active := List.replicate n.val none
  staging := List.replicate n.val none
  nextHandle := 0
  initialized := false
  fault := false
  faultCode := 0
  tickMask := false
  deadlineLast := none
  trace := []
  capacity := n
  port := []

/-- The state after hardware reset of a block of the default capacity (00_scope.md R9). -/
def State.reset : State := State.resetOf Config.defaultCapacity

end Sys2Proof.Machine
end

