-- ==== Sys2Proof/Machine/Ops.lean ====
section
/-! DEFINITION. The shared operations: emitting events and responses (00_scope.md R14, 10_state.md
R33), taking the one fault (42_dispatcher.md R134), hardware reset, which is the only way back from it
(60_exceptions.md R195, 70_reset_and_hazards.md R230), and the access primitives of the two tables
(20_memory.md R57, R58). -/

namespace Sys2Proof.Machine

open Sys2Proof

/-- `emit E`: append the event to the output trace (00_scope.md R14). -/
def emit (e : Event) (s : State) : State := { s with trace := s.trace ++ [e] }

/-- The response of a command (30_encoding.md R78). -/
def respond (r : Response) (s : State) : State := emit (.response r) s

/-- `refuse(reason)`: "ends a command with no state change and the REFUSED response"
(00_scope.md R14, 60_exceptions.md R194). -/
def refuse (reason : RefusalReason) (s : State) : State := respond (.refused reason) s

/-- `raise Fault(code)`: the sticky fault state, its event and its response (00_scope.md R14,
42_dispatcher.md R134). Nothing is saved and control goes nowhere: there is no handler (R191, R195). -/
def raiseFault (code : BitVec 2) (s : State) : State :=
  respond (.fault code) (emit (.fault code) { s with fault := true, faultCode := code })

/-- The reset input: every piece of state at its reset value and the output trace empty
(70_reset_and_hazards.md R230); the capacity is the machine's, and what the environment will present
afterwards is the environment's. -/
def hardReset (s : State) : State := { State.resetOf s.capacity with port := s.port }

/-- Enter the critical section (43_registry_publish.md R168). -/
def maskTick (s : State) : State := emit .maskTick { s with tickMask := true }

/-- Leave the critical section (43_registry_publish.md R168). -/
def unmaskTick (s : State) : State := emit .unmaskTick { s with tickMask := false }

/-- The deadline write port (60_exceptions.md R206), observed in `deadline_last` (10_state.md R34). -/
def writeDeadline (v : Deadline) (s : State) : State :=
  emit (.writeDeadline v) { s with deadlineLast := some v }

/-- `ActRead(i)` (20_memory.md R57); no entry beyond the table. -/
def actRead (s : State) (i : Nat) : Option ActiveEntry := s.active.getD i none

/-- `StgRead(i)` (20_memory.md R57); no entry beyond the table. -/
def stgRead (s : State) (i : Nat) : Option StagingEntry := s.staging.getD i none

/-- `StgWrite(i, e)` (20_memory.md R57). -/
def stgWrite (i : Nat) (e : StagingEntry) (s : State) : State :=
  { s with staging := s.staging.set i (some e) }

/-- The active entry copied from a staging entry: the handle is dropped (20_memory.md R58). -/
def dropHandle (e : StagingEntry) : ActiveEntry := ⟨e.word, e.cb⟩

/-- `ActCopy()`: the whole active table is replaced by copies of the staging entries (20_memory.md R58). -/
def actCopy (s : State) : State := { s with active := s.staging.map (Option.map dropHandle) }

/-- `for i in 0 .. N-1: staging[i].valid <- 0 ; active[i].valid <- 0` (43_registry_publish.md R160). -/
def clearTables (s : State) : State :=
  { s with
    staging := List.replicate s.capacity.val none
    active := List.replicate s.capacity.val none }

/-- The form of the block's storage: two tables of `N` slots each (20_memory.md R50). -/
abbrev Memory.wf (s : State) : Prop :=
  s.active.length = s.capacity.val ∧ s.staging.length = s.capacity.val

end Sys2Proof.Machine
end

