-- ==== Sys2Proof/Machine/Flags.lean ====
section
/-! DEFINITION. The flag-like state and the checks made on it (10_state.md R31, R32, R36). The block has
no arithmetic flags. The refusal reasons are tested in the order of 60_exceptions.md R194: HALTED, then
ILLEGAL_ENCODING, then BAD_SEQUENCE, then BAD_HANDLE. -/

namespace Sys2Proof.Machine

open Sys2Proof

/-- Every command is refused with HALTED while `fault = 1` (60_exceptions.md R194, R195). -/
def unlessHalted (k : State → State) (s : State) : State :=
  if s.fault then refuse .halted s else k s

/-- REG, the setters and PUB are refused with BAD_SEQUENCE before INIT (60_exceptions.md R194). -/
def afterInit (k : State → State) (s : State) : State :=
  if s.initialized then k s else refuse .badSequence s

/-- A second INIT is refused with BAD_SEQUENCE (60_exceptions.md R194). -/
def beforeInit (k : State → State) (s : State) : State :=
  if s.initialized then refuse .badSequence s else k s

/-- An illegal command word is refused with ILLEGAL_ENCODING, unless the block is halted, which is
tested first (60_exceptions.md R194, 30_encoding.md R79). -/
def refuseIllegal (s : State) : State := unlessHalted (refuse .illegalEncoding) s

end Sys2Proof.Machine
end

