-- ==== Sys2Proof/Machine/Codec.lean ====
section
/-! DEFINITION. The schedule codec commands ENCT, ENCF, ENCP, DECT, DECF, DECP (40_codec.md R100 to
R106): their result is the value of the response; they read no state and write no state, and are
accepted before INIT (R100). -/

namespace Sys2Proof.Machine

open Sys2Proof

/-- A codec command: halted check, then the result as the response (40_codec.md R100). -/
def answer (result : BitVec 16) (s : State) : State := unlessHalted (respond (.ok result)) s

/-- `ENCT w, v` (40_codec.md R101). -/
def execEnct (w : ScheduleWord) (v : Operand) (s : State) : Host.Outcome State Fault Refusal :=
  .next (answer (encTime w v) s)

/-- `ENCF w, v` (40_codec.md R102). -/
def execEncf (w : ScheduleWord) (v : Operand) (s : State) : Host.Outcome State Fault Refusal :=
  .next (answer (encFrame w v) s)

/-- `ENCP w, v` (40_codec.md R103). -/
def execEncp (w : ScheduleWord) (v : Operand) (s : State) : Host.Outcome State Fault Refusal :=
  .next (answer (encPeriod w v) s)

/-- `DECT w` (40_codec.md R104). -/
def execDect (w : ScheduleWord) (s : State) : Host.Outcome State Fault Refusal :=
  .next (answer (decTime w) s)

/-- `DECF w` (40_codec.md R105). -/
def execDecf (w : ScheduleWord) (s : State) : Host.Outcome State Fault Refusal :=
  .next (answer (decFrame w) s)

/-- `DECP w` (40_codec.md R106). -/
def execDecp (w : ScheduleWord) (s : State) : Host.Outcome State Fault Refusal :=
  .next (answer (decPeriod w) s)

end Sys2Proof.Machine
end

