-- ==== Sys2Proof/Machine/FramePeriod.lean ====
section
/-! DEFINITION. The frame/period matcher and the frame-advance micro-operation FADV (41_frame_period.md
R120, R121). FADV is no command: only the FIRE stage of TICK starts it (R124). -/

namespace Sys2Proof.Machine

open Sys2Proof

/-- `match(w)` with the frame and period given: bit `7 + current_frame` and bit `12 + current_period`
of the word are both 1 (41_frame_period.md R120). -/
def matchesIn (f : Fin 5) (p : Fin 4) (w : ScheduleWord) : Bool :=
  w.getLsbD (7 + f.val) && w.getLsbD (12 + p.val)

/-- `match(w)` in the current frame and period (41_frame_period.md R120). -/
def matchesNow (s : State) (w : ScheduleWord) : Bool :=
  matchesIn s.currentFrame s.currentPeriod w

/-- The frame/period pair after one frame advance (41_frame_period.md R121). -/
def nextFramePeriod (f : Fin 5) (p : Fin 4) : Fin 5 × Fin 4 :=
  if f = 4 then (0, p + 1) else (f + 1, p)

/-- `FADV`: advance the frame/period pair and reset the scan (41_frame_period.md R121). -/
def fadv (s : State) : State :=
  { s with
    currentFrame := (nextFramePeriod s.currentFrame s.currentPeriod).1
    currentPeriod := (nextFramePeriod s.currentFrame s.currentPeriod).2
    scanPosition := 0
    elapsedFrameTime := 0 }

end Sys2Proof.Machine
end

