-- ==== Sys2Proof/Machine/Dispatcher.lean ====
section
/-! DEFINITION. TICK and its stages FIRE, SCAN, DEADLINE and LATCH (42_dispatcher.md R130 to R138), run
in this order inside one atomic operation. -/

namespace Sys2Proof.Machine

open Sys2Proof

/-- How a scan ends (42_dispatcher.md R133). -/
inductive ScanResult where
  /-- Entry `e` at index `i` is the first match. -/
  | found (i : Nat) (e : ActiveEntry)
  /-- The end of the sequence was reached at index `i`. -/
  | exhausted (i : Nat)
  deriving DecidableEq, Repr

/-- FIRE: request the callback latched by the previous TICK; the frame-advance task's runs FADV inside
the block, any other changes no block state (42_dispatcher.md R132). -/
def fireStage (s : State) : State :=
  match s.latchedTask with
  | none => s
  | some cb => if cb = Config.cbFadv then fadv (emit (.fire cb) s) else emit (.fire cb) s

/-- The loop of SCAN from index `i`, where `fuel = N - i` slots are left: the end is index `N` or the
first empty slot, whichever comes first (42_dispatcher.md R133). -/
def scanLoop (s : State) : Nat → Nat → ScanResult
  | 0, i => .exhausted i
  | fuel + 1, i =>
    match actRead s i with
    | none => .exhausted i
    | some e => if matchesNow s e.word then .found i e else scanLoop s fuel (i + 1)

/-- SCAN: forward from `scan_position`, never wrapping (42_dispatcher.md R133). -/
def scan (s : State) : ScanResult := scanLoop s (s.capacity.val - s.scanPosition) s.scanPosition

/-- The value written to the next-deadline register: `(255 - ((t2 - elapsed) mod 256)) mod 256`
(42_dispatcher.md R136). -/
def deadlineValue (t2 elapsed : Deadline) : Deadline := Config.dlBase - (t2 - elapsed)

/-- DEADLINE: write the distance to the found task's slot and take the slot as the elapsed time
(42_dispatcher.md R136). -/
def deadlineStage (e : ActiveEntry) (s : State) : State :=
  { writeDeadline (deadlineValue (doubledSlot e.word) s.elapsedFrameTime) s with
    elapsedFrameTime := doubledSlot e.word }

/-- LATCH: keep the found task's callback identifier for the next TICK (42_dispatcher.md R137). -/
def latchStage (e : ActiveEntry) (s : State) : State := { s with latchedTask := some e.cb }

/-- What follows the scan: the successful end of TICK (42_dispatcher.md R133, R136, R137), or the fatal
fault with DEADLINE and LATCH skipped (R134). -/
def finishTick (r : ScanResult) (s : State) : State :=
  match r with
  | .found i e => respond (.ok 0) (latchStage e (deadlineStage e { s with scanPosition := i + 1 }))
  | .exhausted i => raiseFault Config.scanExhausted { s with scanPosition := i }

/-- The four stages; the scan sees a frame advance fired by the same TICK (42_dispatcher.md R132,
R138). -/
def dispatchTick (s : State) : State := finishTick (scan (fireStage s)) (fireStage s)

/-- `TICK` (42_dispatcher.md R131, R138). -/
def execTick (s : State) : Host.Outcome State Fault Refusal := .next (unlessHalted dispatchTick s)

end Sys2Proof.Machine
end

