-- ==== Sys2Proof/Machine/Registry.lean ====
section
/-! DEFINITION. The mutator-side commands INIT, REG, SETT, SETF, SETP and PUB (43_registry_publish.md
R160 to R170). None of them touches the cursor (10_state.md R26). -/

namespace Sys2Proof.Machine

open Sys2Proof

/-- The frame-advance task's entry: handle 0, all frames, all periods, slot 127, callback `CB_FADV`
(43_registry_publish.md R160). -/
def frameAdvanceEntry : StagingEntry :=
  ⟨Config.faHandle, registerWord Config.faTime Config.allFrames Config.allPeriods, Config.cbFadv⟩

/-- The effect of INIT once it is accepted (43_registry_publish.md R160). -/
def initTables (s : State) : State :=
  respond (.ok 0)
    { stgWrite 0 frameAdvanceEntry (clearTables s) with nextHandle := 1, initialized := true }

/-- "the first empty slot of the staging sequence scanning from index 0" (43_registry_publish.md R161). -/
def firstEmptySlot (s : State) : Option Nat := s.staging.findIdx? Option.isNone

/-- The effect of REG once it is accepted: one new entry, or, with the table full, nothing
(43_registry_publish.md R161, 60_exceptions.md R192). -/
def register (time frames periods : Operand) (cb : CallbackId) (s : State) : State :=
  match firstEmptySlot s with
  | none => respond .none s
  | some i =>
    respond (.ok (handleValue s.nextHandle))
      { stgWrite i ⟨s.nextHandle, registerWord time frames periods, cb⟩ s with
        nextHandle := s.nextHandle + 1 }

/-- Whether a slot holds a valid entry that carries the handle (43_registry_publish.md R165). -/
def carriesHandle (h : TaskHandle) (slot : Option StagingEntry) : Bool :=
  match slot with
  | none => false
  | some e => e.handle == h

/-- `Lookup(handle)` (43_registry_publish.md R165): by handle, not by index. -/
def lookupHandle (s : State) (h : TaskHandle) : Option Nat := s.staging.findIdx? (carriesHandle h)

/-- Replace the schedule word of one staging entry as a whole (20_memory.md R51). -/
def setEntryWord (j : Nat) (f : ScheduleWord → ScheduleWord) (s : State) : State :=
  match stgRead s j with
  | none => s
  | some e => stgWrite j { e with word := f e.word } s

/-- The shape of the three setters: checks, lookup, then one word re-encoded in place
(43_registry_publish.md R162 to R164). -/
def setField (enc : ScheduleWord → Operand → ScheduleWord) (h : TaskHandle) (v : Operand)
    (s : State) : State :=
  match lookupHandle s h with
  | none => refuse .badHandle s
  | some j => respond (.ok 0) (setEntryWord j (fun w => enc w v) s)

/-- The entries before the first empty slot (43_registry_publish.md R167). -/
def stagedEntries (l : List (Option StagingEntry)) : List StagingEntry :=
  (l.takeWhile Option.isSome).filterMap id

/-- Put one entry behind every entry of an ascending list whose time slot is not greater: strict
comparison of the 7-bit slots, unsigned (43_registry_publish.md R167). -/
def insertBySlot (key : StagingEntry) : List StagingEntry → List StagingEntry
  | [] => [key]
  | e :: es =>
    if (timeSlot key.word).toNat < (timeSlot e.word).toNat then key :: e :: es
    else e :: insertBySlot key es

/-- The stable ascending order by time slot, by insertion in staging order (43_registry_publish.md
R167). -/
def sortBySlot (l : List StagingEntry) : List StagingEntry :=
  l.foldl (fun acc e => insertBySlot e acc) []

/-- `SortStaging()`: the entries before the first empty slot sorted, the rest untouched
(43_registry_publish.md R167). -/
def sortStaging (s : State) : State :=
  { s with
    staging := (sortBySlot (stagedEntries s.staging)).map some ++
      s.staging.dropWhile Option.isSome }

/-- The effect of PUB once it is accepted: sort, then the bulk copy inside the critical section
(43_registry_publish.md R166, R168). -/
def publish (s : State) : State :=
  respond (.ok 0) (unmaskTick (actCopy (maskTick (sortStaging s))))

/-- `INIT` (43_registry_publish.md R160). -/
def execInit (s : State) : Host.Outcome State Fault Refusal :=
  .next (unlessHalted (beforeInit initTables) s)

/-- `REG time, frame_mask, period_mask, cb` (43_registry_publish.md R161). -/
def execReg (time frames periods : Operand) (cb : CallbackId) (s : State) :
    Host.Outcome State Fault Refusal :=
  .next (unlessHalted (afterInit (register time frames periods cb)) s)

/-- `SETT handle, value` (43_registry_publish.md R162). -/
def execSett (h : TaskHandle) (v : Operand) (s : State) : Host.Outcome State Fault Refusal :=
  .next (unlessHalted (afterInit (setField encTime h v)) s)

/-- `SETF handle, value` (43_registry_publish.md R163). -/
def execSetf (h : TaskHandle) (v : Operand) (s : State) : Host.Outcome State Fault Refusal :=
  .next (unlessHalted (afterInit (setField encFrame h v)) s)

/-- `SETP handle, value` (43_registry_publish.md R164). -/
def execSetp (h : TaskHandle) (v : Operand) (s : State) : Host.Outcome State Fault Refusal :=
  .next (unlessHalted (afterInit (setField encPeriod h v)) s)

/-- `PUB` (43_registry_publish.md R166). -/
def execPub (s : State) : Host.Outcome State Fault Refusal :=
  .next (unlessHalted (afterInit publish) s)

end Sys2Proof.Machine
end

