-- ==== Sys2Proof/Machine/Dispatch.lean ====
section
/-! DEFINITION. One arm per command (30_encoding.md R76), each one call of its meaning. -/

namespace Sys2Proof.Machine

open Sys2Proof

def exec (i : Instr) (s : State) : Host.Outcome State Fault Refusal :=
  match i with
  -- mutator-side operations (43_registry_publish.md)
  | .init => Sys2Proof.Machine.execInit s
  | .reg time frameMask periodMask cb => Sys2Proof.Machine.execReg time frameMask periodMask cb s
  | .sett handle value => Sys2Proof.Machine.execSett handle value s
  | .setf handle value => Sys2Proof.Machine.execSetf handle value s
  | .setp handle value => Sys2Proof.Machine.execSetp handle value s
  | .pub => Sys2Proof.Machine.execPub s
  -- the dispatcher operation (42_dispatcher.md)
  | .tick => Sys2Proof.Machine.execTick s
  -- the schedule codec (40_codec.md)
  | .enct word value => Sys2Proof.Machine.execEnct word value s
  | .encf word value => Sys2Proof.Machine.execEncf word value s
  | .encp word value => Sys2Proof.Machine.execEncp word value s
  | .dect word => Sys2Proof.Machine.execDect word s
  | .decf word => Sys2Proof.Machine.execDecf word s
  | .decp word => Sys2Proof.Machine.execDecp word s

end Sys2Proof.Machine
end

