-- ==== Sys2Proof/Machine/Port.lean ====
section
/-! DEFINITION. The command port: how a presented word becomes one atomic operation (00_scope.md R15,
30_encoding.md R75, R79, 60_exceptions.md R196), and the block's level outputs and strobes (10_state.md
R33, R40). -/

namespace Sys2Proof.Machine

open Sys2Proof

/-- One command word performed: decode and execute, or refuse it as illegal (30_encoding.md R79). -/
def perform (c : CommandWord) (s : State) : Host.Outcome State Fault Refusal :=
  match decode c with
  | .ok i => exec i s
  | .error _ => .next (refuseIllegal s)

/-- One input taken from the port: a command, or the reset input (70_reset_and_hazards.md R230). -/
def takeInput (input : PortInput) (s : State) : Host.Outcome State Fault Refusal :=
  match input with
  | .command c => perform c s
  | .rst => .next (hardReset s)

/-- Present an input before everything the environment was going to present. -/
def presentNext (input : PortInput) (s : State) : State := { s with port := input :: s.port }

/-- The code of a refusal reason (60_exceptions.md R194). -/
def reasonCode : RefusalReason → BitVec 16
  | .illegalEncoding => 1
  | .badHandle => 2
  | .badSequence => 3
  | .halted => 4

/-- The 18-bit response word, `status` in the two high bits and `value` in the low 16
(30_encoding.md R78). -/
def responseWord : Response → BitVec 18
  | .ok value => 0#2 ++ value
  | .none => 1#2 ++ 0#16
  | .refused reason => 2#2 ++ reasonCode reason
  | .fault code => 3#2 ++ code.setWidth 16

/-- The level outputs: `cur_frame[2:0]`, `cur_period[1:0]`, `fault`, `fault_code[1:0]` (10_state.md R40)
and `tick_mask` (R33). -/
structure StatusOutputs where
  curFrame : BitVec 3
  curPeriod : BitVec 2
  fault : Bool
  faultCode : BitVec 2
  tickMask : Bool
  deriving DecidableEq, Repr

/-- The level outputs in a state (10_state.md R33, R40); nothing in the block depends on them. -/
def statusOutputs (s : State) : StatusOutputs where
  curFrame := BitVec.ofNat 3 s.currentFrame.val
  curPeriod := BitVec.ofNat 2 s.currentPeriod.val
  fault := s.fault
  faultCode := s.faultCode
  tickMask := s.tickMask

/-- `fire_valid` with `fire_cb[7:0]`: the strobe an event makes, if any (10_state.md R33). -/
def fireStrobe : Event → Option CallbackId
  | .fire cb => some cb
  | .writeDeadline _ => none
  | .maskTick => none
  | .unmaskTick => none
  | .fault _ => none
  | .response _ => none

/-- `dl_we` with `dl_data[7:0]`: the strobe an event makes, if any (10_state.md R33, 60_exceptions.md
R206). -/
def deadlineStrobe : Event → Option Deadline
  | .fire _ => none
  | .writeDeadline v => some v
  | .maskTick => none
  | .unmaskTick => none
  | .fault _ => none
  | .response _ => none

/-- What a written value asks of the timer: to fire again after `255 - dl` further ticks (60_exceptions.md
R207). How the timer meets that is the timer's (R205, 92_eei_decisions.md D23). -/
def ticksAsked (dl : Deadline) : Nat := 255 - dl.toNat

/-- The response an event is, if any (30_encoding.md R78). -/
def responseOf : Event → Option Response
  | .fire _ => none
  | .writeDeadline _ => none
  | .maskTick => none
  | .unmaskTick => none
  | .fault _ => none
  | .response r => some r

end Sys2Proof.Machine
end

