-- ==== Sys2Proof/Machine/Step.lean ====
section
/-! DEFINITION. One step: the next input the environment presents is taken as one atomic operation
(00_scope.md R15, 20_memory.md R61); with nothing presented the block waits
(70_reset_and_hazards.md R230). The block fetches no instructions (00_scope.md R2): the command port
stands where a processor's fetch would. -/

namespace Sys2Proof.Machine

open Sys2Proof

/-- One step of the block. -/
def step (s : State) : Host.Outcome State Fault Refusal :=
  match s.port with
  | [] => .next s
  | input :: rest => takeInput input { s with port := rest }

/-- The state with a command word, numbered as spec/opcode_table.json numbers it, presented next on
the command port. -/
def State.withFetchWord (s : State) (nbits w : Nat) : State :=
  presentNext (.command (tableWord nbits w)) s

end Sys2Proof.Machine
end

