-- ==== Sys2Proof/Safety.lean ====
section
/-! DEFINITION. The terms claims use: what counts as a clean run (60_exceptions.md R194), the two halves
of the state (10_state.md, 20_memory.md R56), the invariants of the tables and the cursor (20_memory.md
R54, R55, 10_state.md R20 to R38), the sentinel condition (42_dispatcher.md R141) and what one command
adds to the trace. -/

namespace Sys2Proof.Machine

open Sys2Proof

/-! ## Clean runs -/

/-- No command was refused and no fault was raised so far. A refused command is a response in the trace
and the run goes on (60_exceptions.md R194); a claim about runs that must leave such runs out, as R194
asks, takes this as its premise. -/
abbrev State.Clean (s : State) : Prop :=
  ∀ e ∈ s.trace, (∀ reason, e ≠ .response (.refused reason)) ∧ (∀ code, e ≠ .fault code)

/-! ## The two halves of the state -/

/-- The dispatcher half (10_state.md R20 to R28, R32): all that TICK reads or writes, the trace and the
observed deadline apart. -/
structure DispatcherHalf where
  currentFrame : Fin 5
  currentPeriod : Fin 4
  scanPosition : Nat
  elapsedFrameTime : Deadline
  latchedTask : Option CallbackId
  active : List (Option ActiveEntry)
  fault : Bool
  faultCode : BitVec 2
  capacity : Config.Capacity
  deriving DecidableEq, Repr

/-- The dispatcher half of a state. -/
def dispatcherHalf (s : State) : DispatcherHalf :=
  ⟨s.currentFrame, s.currentPeriod, s.scanPosition, s.elapsedFrameTime, s.latchedTask, s.active,
    s.fault, s.faultCode, s.capacity⟩

/-- The mutator half (10_state.md R29 to R31). -/
structure MutatorHalf where
  staging : List (Option StagingEntry)
  nextHandle : TaskHandle
  initialized : Bool
  deriving DecidableEq, Repr

/-- The mutator half of a state. -/
def mutatorHalf (s : State) : MutatorHalf := ⟨s.staging, s.nextHandle, s.initialized⟩

/-- The cursor is unchanged: the five registers of 10_state.md R26. -/
abbrev SameCursor (s t : State) : Prop :=
  t.currentFrame = s.currentFrame ∧ t.currentPeriod = s.currentPeriod ∧
    t.scanPosition = s.scanPosition ∧ t.elapsedFrameTime = s.elapsedFrameTime ∧
    t.latchedTask = s.latchedTask

/-- What no command of either agent writes: the machine's capacity and what the environment presents
next. -/
abbrev SameEnvironment (s t : State) : Prop := t.capacity = s.capacity ∧ t.port = s.port

/-- The fault flag and code are unchanged. -/
abbrev SameFault (s t : State) : Prop := t.fault = s.fault ∧ t.faultCode = s.faultCode

/-- Every slot of the active table reads as before. -/
abbrev SameActive (s t : State) : Prop :=
  t.active.length = s.active.length ∧ ∀ i, actRead t i = actRead s i

/-- Every slot of the staging table reads as before, but for the slot that `stored` gives, if it gives
one. -/
abbrev SameStagingBut (stored : Option Nat) (s t : State) : Prop :=
  t.staging.length = s.staging.length ∧ ∀ i, stored ≠ some i → stgRead t i = stgRead s i

/-! ## What one command adds to the trace -/

/-- The trace of `t` is the trace of `s` followed by `evs`. -/
abbrev Adds (s t : State) (evs : List Event) : Prop := t.trace = s.trace ++ evs

/-! ## Invariants -/

/-- The entries of the slots below `k`, and only they, are valid: no hole (20_memory.md R54, R55 (a)). -/
def ValidBelow {α : Type} (slots : List (Option α)) (k : Nat) : Prop :=
  k ≤ slots.length ∧ ∀ i, i < slots.length → ((slots.getD i none).isSome = true ↔ i < k)

/-- Adjacent valid entries are ascending in their time slot (20_memory.md R55 (b)). -/
def AscendingSlots (s : State) : Prop :=
  ∀ i a b, actRead s i = some a → actRead s (i + 1) = some b →
    (timeSlot a.word).toNat ≤ (timeSlot b.word).toNat

/-- The handles of the valid staging entries, in staging order. -/
def stagedHandles (s : State) : List Nat :=
  (s.staging.filterMap id).map (fun e => e.handle.toNat)

/-- The invariant of the whole state that every step keeps. -/
structure StateInv (s : State) : Prop where
  /-- Both tables have `N` slots (20_memory.md R50). -/
  tables : Memory.wf s
  /-- `scan_position` is in `0 .. N` (10_state.md R23). -/
  scanBound : s.scanPosition ≤ s.capacity.val
  /-- `next_handle` is in `0 .. N`, and the valid staging entries are exactly the indices below it
  (10_state.md R30, 20_memory.md R54). -/
  stagingPacked : ValidBelow s.staging s.nextHandle.toNat
  /-- "the handles of the valid entries are exactly 0 .. next_handle - 1, each once" (20_memory.md R54). -/
  handlesOnce : (stagedHandles s).Perm (List.range s.nextHandle.toNat)
  /-- The active table is packed (20_memory.md R55 (a)). -/
  activePacked : ∃ k, ValidBelow s.active k
  /-- The active table is sorted (20_memory.md R55 (b)). -/
  activeSorted : AscendingSlots s
  /-- `elapsed_frame_time` is even (10_state.md R24). -/
  elapsedEven : s.elapsedFrameTime.toNat % 2 = 0
  /-- `fault_code` is 1 with the fault and 0 without (10_state.md R32). -/
  faultCodeFits : s.faultCode = if s.fault then Config.scanExhausted else 0
  /-- No operation starts with `tick_mask = 1` (10_state.md R35). -/
  unmasked : s.tickMask = false
  /-- Before INIT nothing is registered or published (70_reset_and_hazards.md R232, R234). -/
  beforeInit : s.initialized = false → s.nextHandle = 0 ∧ ∀ i, actRead s i = none
  /-- From INIT on the frame-advance task is registered (43_registry_publish.md R160). -/
  afterInit : s.initialized = true → 0 < s.nextHandle.toNat
  /-- `latched_task` is empty only before the first successful TICK, which is the first to write a
  deadline (10_state.md R25, R34). -/
  latchedFits : s.latchedTask = none ↔ s.deadlineLast = none
  /-- `deadline_last` is the last deadline written (10_state.md R34). -/
  deadlineFits : s.deadlineLast = (s.trace.filterMap deadlineStrobe).getLast?

/-- The sentinel condition under which no TICK can fault (20_memory.md R55 (c), 42_dispatcher.md R141):
the frame-advance task stands, unchanged, in the active table at index `a`, every entry before it is
valid, and the next scan starts at or before it; the same task stands in the staging table at an index
not below `a`, every entry before it valid. -/
structure SentinelInv (s : State) : Prop where
  /-- The block is not halted. -/
  running : s.fault = false
  /-- INIT has been performed. -/
  started : s.initialized = true
  /-- The published and the staged frame-advance task. -/
  sentinel : ∃ a j, a ≤ j ∧ a < s.capacity.val ∧
    actRead s a = some ⟨0xFFFF, Config.cbFadv⟩ ∧ (∀ i, i < a → (actRead s i).isSome = true) ∧
    stgRead s j = some ⟨Config.faHandle, 0xFFFF, Config.cbFadv⟩ ∧
    (∀ i, i < j → (stgRead s i).isSome = true) ∧
    (s.latchedTask = some Config.cbFadv ∨ s.scanPosition ≤ a)

/-- The staged frame-advance task is as INIT left it and no hole stands before it: what the first PUB
needs to establish the sentinel condition. -/
def SentinelStaged (s : State) : Prop :=
  ∃ j, stgRead s j = some ⟨Config.faHandle, 0xFFFF, Config.cbFadv⟩ ∧
    ∀ i, i < j → (stgRead s i).isSome = true

/-- The input does not touch the sentinel: it is not the reset input and not a setter on handle 0
(20_memory.md R55 (c)). -/
def keepsSentinel : PortInput → Bool
  | .rst => false
  | .command c =>
    match decode c with
    | .ok (.sett h _) => h != Config.faHandle
    | .ok (.setf h _) => h != Config.faHandle
    | .ok (.setp h _) => h != Config.faHandle
    | _ => true

/-- The cursor inside a frame with no PUB since its start (42_dispatcher.md R140): a frame advance is
due, or the scan is at the frame's start, or it stands just behind the entry whose slot is the elapsed
time. -/
def CursorInFrame (s : State) : Prop :=
  s.latchedTask = some Config.cbFadv ∨
    (s.scanPosition = 0 ∧ s.elapsedFrameTime = 0) ∨
    ∃ i e, s.scanPosition = i + 1 ∧ actRead s i = some e ∧ s.elapsedFrameTime = doubledSlot e.word

end Sys2Proof.Machine
end

