-- ==== Sys2Proof/Certificates/Slice0/Obligations.lean ====
section
/-! DEFINITION. The statements for the provers. Each docstring names the rule of spec/ it formalises. -/

open Sys2Proof Sys2Proof.Machine

/-! ## Encoding (30_encoding.md) -/

/-- Sanity: one written-out word per family decodes to the command it stands for, and illegal words are
rejected by name (95_test_vectors.md 2.1). -/
def Obligations.SampleWordsDecodeAsListed : Prop :=
  decode 0x1000000000000000 = .ok .init ∧
  decode 0x2001000F001F000A = .ok (.reg 10 0x1F 0xF 1) ∧
  decode 0x300100000000003C = .ok (.sett 1 60) ∧
  decode 0x7000000000000000 = .ok .tick ∧
  decode 0x80000000000AFFFF = .ok (.enct 0xFFFF 10) ∧
  decode 0xC00000000000A2B2 = .ok (.decf 0xA2B2) ∧
  decode 0x2100000000000000 = .error (.reservedFieldSet 1) ∧
  decode 0x7001000000000000 = .error (.unusedOperandSet .f0) ∧
  decode 0xE000000000000000 = .error (.reservedOpcode 0xE)

/-- No bit of an encoding is dropped: every command, at every value of its operands, is what its own
word decodes to (R75 to R77). -/
def Obligations.DecodeOfEncodeIsTheCommand : Prop :=
  ∀ i : Instr, decode (encode i) = .ok i

/-- Every legal word has one meaning and is that command's own word (R75 to R77). -/
def Obligations.EncodeOfDecodeIsTheWord : Prop :=
  ∀ (c : CommandWord) (i : Instr), decode c = .ok i → encode i = c

/-- The decoder, written from the match and mask table (R77), accepts exactly the words that the field
table (R75) makes legal: an assigned opcode, and every reserved or unused field zero (R79). -/
def Obligations.DecodeAcceptsExactlyTheLegalWords : Prop :=
  ∀ c : CommandWord, (∃ i, decode c = .ok i) ↔ CommandWord.wellFormed c = true

/-- The 18-bit response `{status[1:0], value[15:0]}` (R78) and the codes of the refusal reasons
(60_exceptions.md R194). -/
def Obligations.ResponseWordsCarryStatusAndValue : Prop :=
  (∀ v : BitVec 16, (responseWord (.ok v)).toNat = v.toNat) ∧
  (responseWord .none).toNat = 1 * 2 ^ 16 ∧
  (responseWord (.refused .illegalEncoding)).toNat = 2 * 2 ^ 16 + 1 ∧
  (responseWord (.refused .badHandle)).toNat = 2 * 2 ^ 16 + 2 ∧
  (responseWord (.refused .badSequence)).toNat = 2 * 2 ^ 16 + 3 ∧
  (responseWord (.refused .halted)).toNat = 2 * 2 ^ 16 + 4 ∧
  (∀ code : BitVec 2, (responseWord (.fault code)).toNat = 3 * 2 ^ 16 + code.toNat)

/-! ## The step and the command port -/

/-- A step with a legal command word presented next is that command's execution, on the state with the
input taken from the port (00_scope.md R15). -/
def Obligations.StepPerformsTheDecodedCommand : Prop :=
  ∀ (s : State) (c : CommandWord) (rest : List PortInput) (i : Instr),
    s.port = .command c :: rest → decode c = .ok i → step s = exec i { s with port := rest }

/-- A step with an illegal word presented next refuses it: HALTED if the block is halted, which is
tested first, else ILLEGAL_ENCODING; nothing else changes (R79, 60_exceptions.md R194). -/
def Obligations.StepRefusesIllegalWords : Prop :=
  ∀ (s : State) (c : CommandWord) (rest : List PortInput) (err : DecodeError),
    s.port = .command c :: rest → decode c = .error err →
    step s = .next { s with
      port := rest
      trace := s.trace ++
        [.response (.refused (if s.fault then .halted else .illegalEncoding))] }

/-- The reset input, in any state, the halted one among them, puts every piece of state at its reset
value and empties the trace (70_reset_and_hazards.md R230); the capacity is the machine's and the inputs
still to come are the environment's (the model's choice, log entry 9). -/
def Obligations.ResetInputRestoresTheResetState : Prop :=
  ∀ (s : State) (rest : List PortInput), s.port = .rst :: rest →
    step s = .next { State.resetOf s.capacity with port := rest }

/-- With nothing presented the block waits (70_reset_and_hazards.md R230: "after reset the block waits
for commands"; the model's reading, log entry 2). -/
def Obligations.StepWithNothingPresentedWaits : Prop :=
  ∀ s : State, s.port = [] → step s = .next s

/-- No step stops the model: every presented input has a next state (60_exceptions.md R194: "A refusal
is not a fault ... and the block goes on"; the fault's own state is a next state, log entries 3
and 4). -/
def Obligations.EveryStepHasANextState : Prop :=
  ∀ s : State, ∃ t, step s = .next t

/-- The values of every piece of state after reset, for every capacity (10_state.md R38). -/
def Obligations.ResetValuesOfEveryRegister : Prop :=
  ∀ n : Config.Capacity,
    (State.resetOf n).currentFrame.val = 0 ∧ (State.resetOf n).currentPeriod.val = 0 ∧
    (State.resetOf n).scanPosition = 0 ∧ (State.resetOf n).elapsedFrameTime = 0 ∧
    (State.resetOf n).latchedTask = none ∧
    (∀ i, actRead (State.resetOf n) i = none) ∧ (State.resetOf n).active.length = n.val ∧
    (∀ i, stgRead (State.resetOf n) i = none) ∧ (State.resetOf n).staging.length = n.val ∧
    (State.resetOf n).nextHandle = 0 ∧ (State.resetOf n).initialized = false ∧
    (State.resetOf n).fault = false ∧ (State.resetOf n).faultCode = 0 ∧
    (State.resetOf n).tickMask = false ∧ (State.resetOf n).deadlineLast = none ∧
    (State.resetOf n).trace = []

/-- The level outputs show the frame, the period, the fault, its code and the tick mask
(10_state.md R33, R40). -/
def Obligations.StatusOutputsShowTheState : Prop :=
  ∀ s : State,
    (statusOutputs s).curFrame.toNat = s.currentFrame.val ∧
    (statusOutputs s).curPeriod.toNat = s.currentPeriod.val ∧
    (statusOutputs s).fault = s.fault ∧ (statusOutputs s).faultCode = s.faultCode ∧
    (statusOutputs s).tickMask = s.tickMask

/-! ## The schedule codec (40_codec.md) -/

/-- ENCT, ENCF and ENCP: their encodings, and their results as responses, no other state changing, in
every state that is not halted, before INIT too (R101, R102, R103). -/
def Obligations.EncodersAnswerTheNewWord : Prop :=
  ∀ (w v : BitVec 16) (s : State), s.fault = false →
    (exec (.enct w v) s =
      .next { s with trace := s.trace ++ [.response (.ok ((w &&& 0xFF80#16) ||| v))] } ∧
      decode (0x8#4 ++ 0#28 ++ v ++ w) = .ok (.enct w v)) ∧
    (exec (.encf w v) s =
      .next { s with trace := s.trace ++ [.response (.ok ((w &&& 0xF07F#16) ||| (v <<< 7)))] } ∧
      decode (0x9#4 ++ 0#28 ++ v ++ w) = .ok (.encf w v)) ∧
    (exec (.encp w v) s =
      .next { s with trace := s.trace ++ [.response (.ok ((w &&& 0x0FFF#16) ||| (v <<< 12)))] } ∧
      decode (0xA#4 ++ 0#28 ++ v ++ w) = .ok (.encp w v))

/-- DECT, DECF and DECP: their encodings, and the field, zero-extended, as the response, no other state
changing (R104, R105, R106). -/
def Obligations.DecodersAnswerTheField : Prop :=
  ∀ (w : BitVec 16) (s : State), s.fault = false →
    (exec (.dect w) s =
      .next { s with trace := s.trace ++ [.response (.ok (BitVec.ofNat 16 (w.toNat % 128)))] } ∧
      decode (0xB#4 ++ 0#44 ++ w) = .ok (.dect w)) ∧
    (exec (.decf w) s =
      .next { s with
        trace := s.trace ++ [.response (.ok (BitVec.ofNat 16 (w.toNat / 128 % 32)))] } ∧
      decode (0xC#4 ++ 0#44 ++ w) = .ok (.decf w)) ∧
    (exec (.decp w) s =
      .next { s with trace := s.trace ++ [.response (.ok (BitVec.ofNat 16 (w.toNat / 4096)))] } ∧
      decode (0xD#4 ++ 0#44 ++ w) = .ok (.decp w))

/-- The round-trip law: an in-range value encoded into any word is read back, and an in-range encode
leaves the other two fields as they were (R107; its second group is the spec's own inference). -/
def Obligations.InRangeEncodeIsReadBackAndKeepsTheOtherFields : Prop :=
  ∀ w v : BitVec 16,
    (v.toNat ≤ 127 → decTime (encTime w v) = v ∧ encTime w v &&& 0xFF80#16 = w &&& 0xFF80#16) ∧
    (v.toNat ≤ 31 → decFrame (encFrame w v) = v ∧ encFrame w v &&& 0xF07F#16 = w &&& 0xF07F#16) ∧
    (v.toNat ≤ 15 → decPeriod (encPeriod w v) = v ∧ encPeriod w v &&& 0x0FFF#16 = w &&& 0x0FFF#16)

/-- The spill law for out-of-range values (R108, the spec's own inference from R101 to R103). -/
def Obligations.OutOfRangeBitsSpillUpwardsOnly : Prop :=
  ∀ w v : BitVec 16,
    encTime w v = encTime w (v &&& 0x7F#16) ||| (v &&& 0xFF80#16) ∧
    encFrame w v = encFrame w (v &&& 0x1F#16) ||| (((v >>> 5) &&& 0xF#16) <<< 12) ∧
    encPeriod w v = encPeriod w (v &&& 0xF#16)

/-- The word a registration builds holds only the in-range bits of its operands and does not depend on
the starting word (R109, the spec's own inference). -/
def Obligations.RegisteredWordHoldsOnlyInRangeBits : Prop :=
  ∀ start t f p : BitVec 16,
    encPeriod (encFrame (encTime start t) f) p =
      (t &&& 0x7F#16) ||| ((f &&& 0x1F#16) <<< 7) ||| ((p &&& 0xF#16) <<< 12) ∧
    registerWord t f p = encPeriod (encFrame (encTime start t) f) p

/-! ## The matcher and the frame advance (41_frame_period.md) -/

/-- The match predicate: bit `7 + current_frame` and bit `12 + current_period`, which are bits of the
frame and the period mask; a zero mask never matches, 0xFFFF always does, and the time slot takes no
part (R120). -/
def Obligations.MatchTestsOneFrameAndOnePeriodBit : Prop :=
  (∀ (s : State) (w : ScheduleWord),
    matchesNow s w = (w.getLsbD (7 + s.currentFrame.val) && w.getLsbD (12 + s.currentPeriod.val)) ∧
    matchesNow s w =
      ((frameMask w).getLsbD s.currentFrame.val && (periodMask w).getLsbD s.currentPeriod.val) ∧
    (frameMask w = 0 → matchesNow s w = false) ∧
    (periodMask w = 0 → matchesNow s w = false) ∧
    matchesNow s 0xFFFF = true ∧
    (∀ w' : ScheduleWord, frameMask w' = frameMask w → periodMask w' = periodMask w →
      matchesNow s w' = matchesNow s w)) ∧
  matchesIn 2 1 0xA2B2 = true ∧ matchesIn 1 1 0xA2B2 = false

/-- FADV, and that nothing but the FIRE stage of TICK with `cb = 0` latched moves the frame/period pair
(R121). -/
def Obligations.FrameAdvanceTransitionAndItsOnlyStart : Prop :=
  (∀ s : State,
    (s.currentFrame.val = 4 →
      fadv s = { s with
        currentFrame := 0
        currentPeriod := ⟨(s.currentPeriod.val + 1) % 4, Nat.mod_lt _ (by decide)⟩
        scanPosition := 0
        elapsedFrameTime := 0 }) ∧
    (∀ h : s.currentFrame.val < 4,
      fadv s = { s with
        currentFrame := ⟨s.currentFrame.val + 1, by omega⟩
        scanPosition := 0
        elapsedFrameTime := 0 })) ∧
  (∀ (i : Instr) (s t : State), exec i s = .next t →
    if i = .tick ∧ s.fault = false ∧ s.latchedTask = some 0 then
      t.currentFrame = (fadv s).currentFrame ∧ t.currentPeriod = (fadv s).currentPeriod
    else t.currentFrame = s.currentFrame ∧ t.currentPeriod = s.currentPeriod)

/-- The cycle law: after `n` frame advances from (0, 0) the pair is `(n mod 5, (n div 5) mod 4)`, so 5
reach (0, 1) and 20 return (R122; the closed form is the spec's own inference). -/
def Obligations.FrameAdvanceCyclesThroughTwentyStates : Prop :=
  ∀ (s : State) (n : Nat), s.currentFrame = 0 → s.currentPeriod = 0 →
    (fadv^[n] s).currentFrame.val = n % 5 ∧ (fadv^[n] s).currentPeriod.val = n / 5 % 4

/-! ## TICK (42_dispatcher.md) -/

/-- FIRE: the latched callback is requested, FADV runs for `cb = 0` and only for it, and with nothing
latched nothing happens (R132). -/
def Obligations.FireStageRequestsTheLatchedCallback : Prop :=
  ∀ s : State,
    (s.latchedTask = none → fireStage s = s) ∧
    (s.latchedTask = some 0 → fireStage s = fadv { s with trace := s.trace ++ [.fire 0] }) ∧
    (∀ cb, cb ≠ 0 → s.latchedTask = some cb →
      fireStage s = { s with trace := s.trace ++ [.fire cb] })

/-- A TICK that is not halted and finds entry `e` at index `i`, the first match at or after the scan
position that FIRE leaves, writes the deadline, takes the slot as elapsed time, moves the scan past the
entry, latches its callback and answers OK(0); it changes nothing else (R133, R136, R137, R138). -/
def Obligations.TickFindsProgramsAndLatches : Prop :=
  ∀ (s : State) (i : Nat) (e : ActiveEntry),
    s.fault = false →
    (fireStage s).scanPosition ≤ i → i < s.capacity.val →
    actRead s i = some e → matchesNow (fireStage s) e.word = true →
    (∀ j, (fireStage s).scanPosition ≤ j → j < i →
      ∃ e', actRead s j = some e' ∧ matchesNow (fireStage s) e'.word = false) →
    exec .tick s = .next { fireStage s with
      scanPosition := i + 1
      elapsedFrameTime := BitVec.ofNat 8 (2 * (timeSlot e.word).toNat)
      latchedTask := some e.cb
      deadlineLast := some (BitVec.ofNat 8
        (255 - (2 * (timeSlot e.word).toNat + 256 - (fireStage s).elapsedFrameTime.toNat) % 256))
      trace := (fireStage s).trace ++
        [.writeDeadline (BitVec.ofNat 8 (255 -
            (2 * (timeSlot e.word).toNat + 256 - (fireStage s).elapsedFrameTime.toNat) % 256)),
          .response (.ok 0)] }

/-- A TICK whose scan reaches index `k`, the end of the table or its first empty slot, without a match
raises the fatal fault: `scan_position` is the stop index, the FIRE stage stands, no deadline is written
and nothing is latched (R134, 60_exceptions.md R204). -/
def Obligations.ExhaustedScanRaisesTheFatalFault : Prop :=
  ∀ (s : State) (k : Nat),
    s.fault = false →
    (fireStage s).scanPosition ≤ k → k ≤ s.capacity.val →
    (k = s.capacity.val ∨ actRead s k = none) →
    (∀ j, (fireStage s).scanPosition ≤ j → j < k →
      ∃ e', actRead s j = some e' ∧ matchesNow (fireStage s) e'.word = false) →
    exec .tick s = .next { fireStage s with
      scanPosition := k
      fault := true
      faultCode := 1
      trace := (fireStage s).trace ++ [.fault 1, .response (.fault 1)] }

/-- Over a packed active table a TICK that is not halted succeeds exactly when some matching entry lies
at or after the scan position that FIRE leaves (R141, its precise form). -/
def Obligations.TickSucceedsExactlyWhenAMatchLiesAhead : Prop :=
  ∀ (s t : State) (k : Nat),
    s.fault = false → s.active.length = s.capacity.val → ValidBelow s.active k →
    exec .tick s = .next t →
    (t.fault = false ↔
      ∃ i e, (fireStage s).scanPosition ≤ i ∧ actRead s i = some e ∧
        matchesNow (fireStage s) e.word = true)

/-- A TICK while every slot of the active table is empty, as before the first PUB, faults where it
stands and writes no deadline (70_reset_and_hazards.md R234). -/
def Obligations.TickBeforeTheFirstPublishFaults : Prop :=
  ∀ s : State, s.fault = false → s.latchedTask = none → s.scanPosition ≤ s.capacity.val →
    (∀ i, actRead s i = none) →
    exec .tick s = .next { s with
      fault := true
      faultCode := 1
      trace := s.trace ++ [.fault 1, .response (.fault 1)] }

/-- The deadline arithmetic: the doubled slot never overflows; the value written is
`255 - (t2 - elapsed)` exactly when that distance is not negative, and is then in 1 .. 255, and 255
exactly for distance 0; a negative distance wraps modulo 256 (R136, R140; the wrap is the spec's decision
D11). -/
def Obligations.DeadlineValueArithmetic : Prop :=
  ∀ (w : ScheduleWord) (elapsed : Deadline),
    (doubledSlot w).toNat = 2 * (timeSlot w).toNat ∧
    (elapsed.toNat ≤ 2 * (timeSlot w).toNat →
      (deadlineValue (doubledSlot w) elapsed).toNat =
          255 - (2 * (timeSlot w).toNat - elapsed.toNat) ∧
        1 ≤ (deadlineValue (doubledSlot w) elapsed).toNat ∧
        ((deadlineValue (doubledSlot w) elapsed).toNat = 255 ↔
          elapsed.toNat = 2 * (timeSlot w).toNat)) ∧
    (2 * (timeSlot w).toNat < elapsed.toNat →
      (deadlineValue (doubledSlot w) elapsed).toNat =
        255 - (2 * (timeSlot w).toNat + 256 - elapsed.toNat))

/-- The order of events of one TICK that is not halted: the Fire of the latched callback, if one is
latched, then exactly one of WriteDeadline and Fault, then the response (R143). -/
def Obligations.TickEventsComeInStageOrder : Prop :=
  ∀ s t : State, s.fault = false → exec .tick s = .next t →
    (t.fault = false ∧ ∃ v, t.deadlineLast = some v ∧
      Adds s t ((s.latchedTask.map Event.fire).toList ++ [.writeDeadline v, .response (.ok 0)])) ∨
    (t.fault = true ∧ t.deadlineLast = s.deadlineLast ∧
      Adds s t ((s.latchedTask.map Event.fire).toList ++ [.fault 1, .response (.fault 1)]))

/-- Once a task is latched, one is latched for ever: no command of either agent empties the latch
(R137). -/
def Obligations.LatchIsNeverEmptiedByACommand : Prop :=
  ∀ (i : Instr) (s t : State), exec i s = .next t →
    (s.latchedTask ≠ none → t.latchedTask ≠ none) ∧
    (i = .tick → s.fault = false → t.fault = false → t.latchedTask ≠ none)

/-- Inside a frame with no PUB since its start the distance is never negative: the deadline a
successful TICK writes is `255` less the growth of the elapsed time, and is at least 1 (R140). -/
def Obligations.DeadlineNeverWrapsInsideAFrame : Prop :=
  ∀ s t : State, StateInv s → CursorInFrame s → s.fault = false →
    exec .tick s = .next t → t.fault = false →
    (fireStage s).elapsedFrameTime.toNat ≤ t.elapsedFrameTime.toNat ∧
    ∃ v : Deadline, t.deadlineLast = some v ∧ 1 ≤ v.toNat ∧
      v.toNat = 255 - (t.elapsedFrameTime.toNat - (fireStage s).elapsedFrameTime.toNat)

/-- Being inside a frame is kept by every step that is no PUB, until a fault (R140). -/
def Obligations.CursorStaysInFrameWithoutPublish : Prop :=
  ∀ s t : State, StateInv s → (s.fault = false → CursorInFrame s) → step s = .next t →
    (∀ c rest, s.port = .command c :: rest → decode c ≠ .ok .pub) →
    t.fault = false → CursorInFrame t

/-! ## The sentinel (42_dispatcher.md R141) -/

/-- While the sentinel condition holds, every step but a reset and a setter on handle 0 keeps it, so no
TICK ever faults, a PUB in the middle of a frame notwithstanding (R141). -/
def Obligations.SentinelConditionIsKeptSoNoTickFaults : Prop :=
  ∀ s t : State, StateInv s → SentinelInv s → step s = .next t →
    (∀ input rest, s.port = input :: rest → keepsSentinel input = true) →
    SentinelInv t

/-- INIT stages the frame-advance task, and a PUB while it stands there unchanged establishes the
sentinel condition, if the next scan starts at index 0 (R141, 20_memory.md R55 (c)). -/
def Obligations.FirstPublishEstablishesTheSentinel : Prop :=
  (∀ s t : State, Memory.wf s → s.fault = false → s.initialized = false →
    exec .init s = .next t → SentinelStaged t) ∧
  (∀ s t : State, Memory.wf s → s.fault = false → s.initialized = true → SentinelStaged s →
    (s.latchedTask = some 0 ∨ s.scanPosition = 0) →
    exec .pub s = .next t → SentinelInv t)

/-! ## The mutator's commands (43_registry_publish.md) -/

/-- INIT, not halted and not yet performed: both tables cleared, the frame-advance task at staging index
0 with handle 0, word 0xFFFF and `cb` 0, the cursor untouched (R160). -/
def Obligations.InitRegistersTheFrameAdvanceTask : Prop :=
  ∀ s : State, s.fault = false → s.initialized = false →
    exec .init s = .next { s with
      staging := (List.replicate s.capacity.val none).set 0 (some ⟨0, 0xFFFF, 0⟩)
      active := List.replicate s.capacity.val none
      nextHandle := 1
      initialized := true
      trace := s.trace ++ [.response (.ok 0)] }

/-- REG after INIT, not halted: the first empty slot takes the new entry, which carries the handle the
response answers; everything else is unchanged (R161). -/
def Obligations.RegisterFillsTheFirstEmptySlot : Prop :=
  ∀ (s : State) (t f p : Operand) (cb : CallbackId) (i : Nat),
    s.fault = false → s.initialized = true →
    i < s.staging.length → stgRead s i = none → (∀ j, j < i → stgRead s j ≠ none) →
    exec (.reg t f p cb) s = .next { s with
      staging := s.staging.set i (some ⟨s.nextHandle,
        (t &&& 0x7F#16) ||| ((f &&& 0x1F#16) <<< 7) ||| ((p &&& 0xF#16) <<< 12), cb⟩)
      nextHandle := s.nextHandle + 1
      trace := s.trace ++ [.response (.ok (BitVec.ofNat 16 s.nextHandle.toNat))] }

/-- Capacity exceeded: REG with a full staging table, after INIT and not halted, changes no state, sets
no flag and answers NONE (60_exceptions.md R192). -/
def Obligations.RegisterWhenFullIsANoOp : Prop :=
  ∀ (s : State) (t f p : Operand) (cb : CallbackId),
    s.fault = false → s.initialized = true →
    (∀ j, j < s.staging.length → stgRead s j ≠ none) →
    exec (.reg t f p cb) s = .next { s with trace := s.trace ++ [.response .none] }

/-- SETT, SETF and SETP: their encodings, their refusals, and their effect, the re-encoded word of the
one entry that carries the handle (R162, R163, R164). -/
def Obligations.SettersReencodeOneStagedWord : Prop :=
  ∀ (h : TaskHandle) (v : Operand) (s : State),
    (decode (0x30#8 ++ h ++ 0#32 ++ v) = .ok (.sett h v) ∧
      decode (0x40#8 ++ h ++ 0#32 ++ v) = .ok (.setf h v) ∧
      decode (0x50#8 ++ h ++ 0#32 ++ v) = .ok (.setp h v)) ∧
    ∀ (i : Instr) (enc : ScheduleWord → ScheduleWord),
      (i = .sett h v ∧ enc = (fun w => (w &&& 0xFF80#16) ||| v) ∨
        i = .setf h v ∧ enc = (fun w => (w &&& 0xF07F#16) ||| (v <<< 7)) ∨
        i = .setp h v ∧ enc = (fun w => (w &&& 0x0FFF#16) ||| (v <<< 12))) →
      (s.fault = true →
        exec i s = .next { s with trace := s.trace ++ [.response (.refused .halted)] }) ∧
      (s.fault = false → s.initialized = false →
        exec i s = .next { s with trace := s.trace ++ [.response (.refused .badSequence)] }) ∧
      (s.fault = false → s.initialized = true →
        (∀ j e, stgRead s j = some e → e.handle ≠ h) →
        exec i s = .next { s with trace := s.trace ++ [.response (.refused .badHandle)] }) ∧
      (∀ j e, s.fault = false → s.initialized = true →
        stgRead s j = some e → e.handle = h →
        (∀ j' e', j' < j → stgRead s j' = some e' → e'.handle ≠ h) →
        exec i s = .next { s with
          staging := s.staging.set j (some { e with word := enc e.word })
          trace := s.trace ++ [.response (.ok 0)] })

/-- What the storing commands leave unchanged: a setter stores only to the slot its lookup gives and REG
only to the first empty slot; every other slot of both tables reads as before, the cursor, the fault,
the flags and the deadline stand (R161 to R164, 10_state.md R26). -/
def Obligations.StagingWritesLeaveEverythingElse : Prop :=
  (∀ (h : TaskHandle) (v : Operand) (i : Instr) (s t : State),
    (i = .sett h v ∨ i = .setf h v ∨ i = .setp h v) → exec i s = .next t →
    SameStagingBut (lookupHandle s h) s t ∧ t.nextHandle = s.nextHandle ∧
    SameActive s t ∧ SameCursor s t ∧ SameFault s t ∧ SameEnvironment s t ∧
    t.initialized = s.initialized ∧ t.tickMask = s.tickMask ∧ t.deadlineLast = s.deadlineLast) ∧
  (∀ (tm f p : Operand) (cb : CallbackId) (s t : State), exec (.reg tm f p cb) s = .next t →
    SameStagingBut (firstEmptySlot s) s t ∧
    SameActive s t ∧ SameCursor s t ∧ SameFault s t ∧ SameEnvironment s t ∧
    t.initialized = s.initialized ∧ t.tickMask = s.tickMask ∧ t.deadlineLast = s.deadlineLast)

/-- PUB after INIT, not halted: the staging table sorted, then copied whole, handles dropped, into the
active table inside the critical section; the cursor and the latch untouched (R166). -/
def Obligations.PublishSortsThenCopiesTheWholeTable : Prop :=
  ∀ s : State, s.fault = false → s.initialized = true →
    exec .pub s = .next { s with
      staging := (sortStaging s).staging
      active := (sortStaging s).staging.map (Option.map (fun e => ⟨e.word, e.cb⟩))
      tickMask := false
      trace := s.trace ++ [.maskTick, .unmaskTick, .response (.ok 0)] }

/-- The sort's order: over a table whose valid entries are `es` followed by an empty slot or the end,
the sorted entries are a permutation of `es`, ascending in the time slot, and keep the order of entries
of equal slot, and what stands from the first empty slot on is untouched (R167). -/
def Obligations.SortIsTheStableAscendingOrder : Prop :=
  ∀ (s : State) (es : List StagingEntry) (tail : List (Option StagingEntry)),
    s.staging = es.map some ++ tail → (tail = [] ∨ ∃ rest, tail = none :: rest) →
    ∃ sorted : List StagingEntry,
      (sortStaging s).staging = sorted.map some ++ tail ∧
      sorted.Perm es ∧
      sorted.Pairwise (fun a b => (timeSlot a.word).toNat ≤ (timeSlot b.word).toNat) ∧
      ∀ slot : BitVec 7, sorted.filter (fun e => timeSlot e.word = slot) =
        es.filter (fun e => timeSlot e.word = slot)

/-- After a PUB that is performed on a staging table without a hole, the active table is packed and
adjacent entries are ascending in the time slot (20_memory.md R55 (a) and (b)). -/
def Obligations.PublishedTableIsPackedAndAscending : Prop :=
  ∀ (s t : State) (k : Nat), s.fault = false → s.initialized = true → ValidBelow s.staging k →
    exec .pub s = .next t → ValidBelow t.active k ∧ AscendingSlots t

/-- Lookup finds exactly the handles that were registered, each at one slot, wherever the sort moved it
(R165). -/
def Obligations.LookupFindsExactlyTheRegisteredHandles : Prop :=
  ∀ (s : State) (h : TaskHandle), StateInv s →
    (h.toNat < s.nextHandle.toNat →
      ∃ j e, lookupHandle s h = some j ∧ stgRead s j = some e ∧ e.handle = h ∧
        ∀ j' e', stgRead s j' = some e' → e'.handle = h → j' = j) ∧
    (s.nextHandle.toNat ≤ h.toNat → lookupHandle s h = none)

/-! ## The two contexts (20_memory.md, 60_exceptions.md) -/

/-- The access discipline on writes: the mutator's commands never write the cursor, the latch, the fault
or the deadline; only PUB and INIT write the active table; TICK writes neither table nor the mutator's
registers; a codec command writes nothing but its response (20_memory.md R56, 60_exceptions.md R201). -/
def Obligations.EachContextWritesOnlyItsOwnHalf : Prop :=
  ∀ (i : Instr) (s t : State), exec i s = .next t →
    SameEnvironment s t ∧
    (i.agent = .mutator → SameCursor s t ∧ SameFault s t ∧ t.deadlineLast = s.deadlineLast) ∧
    (i ≠ .pub → i ≠ .init → SameActive s t) ∧
    (i ≠ .pub → t.tickMask = s.tickMask) ∧
    (i.agent = .dispatcher →
      SameStagingBut none s t ∧ t.nextHandle = s.nextHandle ∧ t.initialized = s.initialized) ∧
    (i.isCodec = true → ∃ r, t = { s with trace := s.trace ++ [.response r] })

/-- The dispatcher reads nothing of the mutator's half: two states with the same dispatcher half give
TICKs with the same events and the same dispatcher half afterwards (20_memory.md R56). -/
def Obligations.TickDependsOnTheDispatcherHalfOnly : Prop :=
  ∀ s₁ s₂ t₁ t₂ : State, dispatcherHalf s₁ = dispatcherHalf s₂ →
    exec .tick s₁ = .next t₁ → exec .tick s₂ = .next t₂ →
    dispatcherHalf t₁ = dispatcherHalf t₂ ∧ ∃ evs, Adds s₁ t₁ evs ∧ Adds s₂ t₂ evs

/-- A mutator command reads nothing of the cursor, the latch or the active table: two states with the
same mutator half, fault flag and capacity give the same mutator half and the same events, and PUB, when
performed, the same active table (20_memory.md R56, 60_exceptions.md R201). -/
def Obligations.MutatorCommandsDependOnTheMutatorHalfOnly : Prop :=
  ∀ (i : Instr) (s₁ s₂ t₁ t₂ : State), i.agent = .mutator →
    mutatorHalf s₁ = mutatorHalf s₂ → s₁.fault = s₂.fault → s₁.capacity = s₂.capacity →
    exec i s₁ = .next t₁ → exec i s₂ = .next t₂ →
    mutatorHalf t₁ = mutatorHalf t₂ ∧ (∃ evs, Adds s₁ t₁ evs ∧ Adds s₂ t₂ evs) ∧
    (i = .pub → s₁.fault = false → s₁.initialized = true → t₁.active = t₂.active)

/-- Staging isolation: no REG, SETT, SETF or SETP changes any value a later TICK reads, so the TICK after
it makes the same events and the same dispatcher state as without it (20_memory.md R60). -/
def Obligations.StagingWritesAreNotObservedByTick : Prop :=
  ∀ (i : Instr) (s t : State),
    (∃ tm f p cb, i = .reg tm f p cb) ∨ (∃ h v, i = .sett h v ∨ i = .setf h v ∨ i = .setp h v) →
    exec i s = .next t →
    dispatcherHalf t = dispatcherHalf s ∧
    ∀ s' t', exec .tick s = .next s' → exec .tick t = .next t' →
      dispatcherHalf t' = dispatcherHalf s' ∧ ∃ evs, Adds s s' evs ∧ Adds t t' evs

/-- A TICK and a REG or setter commute, if the TICK does not fault: either order leaves the same state
but for the order of the trace, and each of the two makes the same events in either order, the TICK
`evs` and the command its one response (20_memory.md R61). The traces are therefore permutations of each
other. -/
def Obligations.TickCommutesWithStagingWrites : Prop :=
  ∀ (i : Instr) (s a ab b ba : State),
    (∃ tm f p cb, i = .reg tm f p cb) ∨ (∃ h v, i = .sett h v ∨ i = .setf h v ∨ i = .setp h v) →
    exec .tick s = .next a → a.fault = false → exec i a = .next ab →
    exec i s = .next b → exec .tick b = .next ba →
    ab = { ba with trace := ab.trace } ∧ ab.trace.Perm ba.trace ∧
    ∃ (evs : List Event) (r : Response),
      Adds s a evs ∧ Adds a ab [.response r] ∧ Adds s b [.response r] ∧ Adds b ba evs

/-! ## Refusals and the fault (60_exceptions.md) -/

/-- The halted state: every command is refused with HALTED and nothing else changes, so no callback is
fired and no deadline written; only the reset input leaves it (R195). -/
def Obligations.HaltedUntilReset : Prop :=
  (∀ (i : Instr) (s : State), s.fault = true →
    exec i s = .next { s with trace := s.trace ++ [.response (.refused .halted)] }) ∧
  (∀ s t : State, s.fault = true → step s = .next t →
    (∃ rest, s.port = .rst :: rest ∧ t.fault = false) ∨
    (t.fault = true ∧ ∃ evs, Adds s t evs ∧
      ∀ e ∈ evs, fireStrobe e = none ∧ deadlineStrobe e = none))

/-- BAD_SEQUENCE: a second INIT, and REG, the setters and PUB before INIT, change no state; TICK and the
codec commands are never refused for it (R194). -/
def Obligations.CommandsOutOfSequenceAreRefused : Prop :=
  ∀ s : State, s.fault = false →
    (s.initialized = true →
      exec .init s = .next { s with trace := s.trace ++ [.response (.refused .badSequence)] }) ∧
    (s.initialized = false → ∀ i : Instr,
      (∃ t f p cb, i = .reg t f p cb) ∨ (∃ h v, i = .sett h v ∨ i = .setf h v ∨ i = .setp h v) ∨
        i = .pub →
      exec i s = .next { s with trace := s.trace ++ [.response (.refused .badSequence)] }) ∧
    (∀ (i : Instr) (t : State), i = .tick ∨ i.isCodec = true → exec i s = .next t →
      ∀ evs, Adds s t evs → .response (.refused .badSequence) ∉ evs)

/-- Every command produces exactly one response, its last event (30_encoding.md R78). -/
def Obligations.EveryCommandGetsExactlyOneResponse : Prop :=
  ∀ (i : Instr) (s t : State), exec i s = .next t →
    ∃ evs r, Adds s t (evs ++ [.response r]) ∧ ∀ e ∈ evs, responseOf e = none

/-- A refused command changes no state and emits no event but its response: whatever command answers
REFUSED, and for whatever reason (R194). -/
def Obligations.RefusedCommandsChangeNoState : Prop :=
  ∀ (i : Instr) (s t : State) (before : List Event) (reason : RefusalReason),
    exec i s = .next t → Adds s t (before ++ [.response (.refused reason)]) →
    t = { s with trace := s.trace ++ [.response (.refused reason)] }

/-- The output trace only grows, until the reset input empties it (10_state.md R33, R38), so a refusal or
a fault, once made, keeps every later run up to the reset outside the claims about clean runs (R194). -/
def Obligations.TraceOnlyGrowsUntilReset : Prop :=
  ∀ s t : State, step s = .next t →
    (∃ rest, s.port = .rst :: rest ∧ t.trace = []) ∨
    ((∃ evs, Adds s t evs) ∧ (State.Clean t → State.Clean s))

/-- The deadline port: a successful TICK makes exactly one write, the observed deadline; any other
command, and a TICK that faults or is refused, makes none (R206). -/
def Obligations.OnlyASuccessfulTickWritesTheDeadline : Prop :=
  ∀ (i : Instr) (s t : State), exec i s = .next t →
    ∃ evs, Adds s t evs ∧
      if i = .tick ∧ s.fault = false ∧ t.fault = false then
        ∃ v, t.deadlineLast = some v ∧ evs.filterMap deadlineStrobe = [v]
      else t.deadlineLast = s.deadlineLast ∧ evs.filterMap deadlineStrobe = []

/-! ## The invariant of the whole state -/

/-- The invariant holds after reset, for every capacity (10_state.md R38). -/
def Obligations.StateInvariantHoldsAtReset : Prop :=
  ∀ n : Config.Capacity, StateInv (State.resetOf n)

/-- Every step keeps the invariant: tables of `N` slots, packed staging whose handles are
`0 .. next_handle - 1` once each, packed and sorted active table, bounded scan position, even elapsed
time, a fault code that fits the fault, no mask between operations (20_memory.md R54, R55, 10_state.md
R23, R24, R30, R32, R34, R35). -/
def Obligations.StateInvariantIsKeptByEveryStep : Prop :=
  ∀ s t : State, StateInv s → step s = .next t → StateInv t
end

