-- ==== Sys2Proof/Laws/Codec.lean ====
section
/-! SUPPORT. The schedule word bit by bit: what each encode writes and each decode reads (40_codec.md R101
to R106, 30_encoding.md R70 to R72). -/

namespace Sys2Proof.Machine

open Sys2Proof

/-- The masked forms of the encodes (40_codec.md R101 to R103). -/
theorem encTime_eq (w : ScheduleWord) (v : Operand) : encTime w v = (w &&& 0xFF80#16) ||| v := by
  simp [encTime, encField, timeMask]

theorem encFrame_eq (w : ScheduleWord) (v : Operand) :
    encFrame w v = (w &&& 0xF07F#16) ||| (v <<< 7) := by
  simp [encFrame, encField, frameFieldMask]

theorem encPeriod_eq (w : ScheduleWord) (v : Operand) :
    encPeriod w v = (w &&& 0x0FFF#16) ||| (v <<< 12) := by
  simp [encPeriod, encField, periodFieldMask]

/-- The bits of the field masks. -/
theorem getLsbD_timeKeep (i : Nat) (h : i < 16) :
    (0xFF80#16).getLsbD i = decide (7 ≤ i) := by
  have : ∀ i < 16, (0xFF80#16).getLsbD i = decide (7 ≤ i) := by decide
  exact this i h

theorem getLsbD_frameKeep (i : Nat) (h : i < 16) :
    (0xF07F#16).getLsbD i = (decide (i < 7) || decide (12 ≤ i)) := by
  have : ∀ i < 16, (0xF07F#16).getLsbD i = (decide (i < 7) || decide (12 ≤ i)) := by
    decide
  exact this i h

theorem getLsbD_periodKeep (i : Nat) (h : i < 16) :
    (0x0FFF#16).getLsbD i = decide (i < 12) := by
  have : ∀ i < 16, (0x0FFF#16).getLsbD i = decide (i < 12) := by decide
  exact this i h

theorem getLsbD_low7 (i : Nat) (h : i < 16) : (0x7F#16).getLsbD i = decide (i < 7) := by
  have : ∀ i < 16, (0x7F#16).getLsbD i = decide (i < 7) := by decide
  exact this i h

theorem getLsbD_low5 (i : Nat) (h : i < 16) : (0x1F#16).getLsbD i = decide (i < 5) := by
  have : ∀ i < 16, (0x1F#16).getLsbD i = decide (i < 5) := by decide
  exact this i h

theorem getLsbD_low4 (i : Nat) (h : i < 16) : (0xF#16).getLsbD i = decide (i < 4) := by
  have : ∀ i < 16, (0xF#16).getLsbD i = decide (i < 4) := by decide
  exact this i h

/-- The bits of an encoded word. -/
theorem getLsbD_encTime (w v : ScheduleWord) (i : Nat) (h : i < 16) :
    (encTime w v).getLsbD i = (w.getLsbD i && decide (7 ≤ i) || v.getLsbD i) := by
  rw [encTime_eq, BitVec.getLsbD_or, BitVec.getLsbD_and, getLsbD_timeKeep i h]

theorem getLsbD_encFrame (w v : ScheduleWord) (i : Nat) (h : i < 16) :
    (encFrame w v).getLsbD i =
      (w.getLsbD i && (decide (i < 7) || decide (12 ≤ i)) ||
        (!decide (i < 7) && v.getLsbD (i - 7))) := by
  rw [encFrame_eq, BitVec.getLsbD_or, BitVec.getLsbD_and, getLsbD_frameKeep i h,
    BitVec.getLsbD_shiftLeft]
  simp [h]

theorem getLsbD_encPeriod (w v : ScheduleWord) (i : Nat) (h : i < 16) :
    (encPeriod w v).getLsbD i =
      (w.getLsbD i && decide (i < 12) || (!decide (i < 12) && v.getLsbD (i - 12))) := by
  rw [encPeriod_eq, BitVec.getLsbD_or, BitVec.getLsbD_and, getLsbD_periodKeep i h,
    BitVec.getLsbD_shiftLeft]
  simp [h]

/-- The bits of the fields. -/
theorem getLsbD_timeSlot (w : ScheduleWord) (i : Nat) :
    (timeSlot w).getLsbD i = (decide (i < 7) && w.getLsbD i) := by
  simp [timeSlot]

theorem getLsbD_frameMask (w : ScheduleWord) (i : Nat) :
    (frameMask w).getLsbD i = (decide (i < 5) && w.getLsbD (7 + i)) := by
  simp [frameMask]

theorem getLsbD_periodMask (w : ScheduleWord) (i : Nat) :
    (periodMask w).getLsbD i = (decide (i < 4) && w.getLsbD (12 + i)) := by
  simp [periodMask]

/-- A value below `2 ^ n` has no bit at or above `n`. -/
theorem getLsbD_of_lt (v : ScheduleWord) (n i : Nat) (h : v.toNat < 2 ^ n) (hi : n ≤ i) :
    v.getLsbD i = false := by
  rw [BitVec.getLsbD]
  exact Nat.testBit_lt_two_pow (Nat.lt_of_lt_of_le h (Nat.pow_le_pow_right (by decide) hi))

/-- The doubled slot never overflows (42_dispatcher.md R140). -/
theorem doubledSlot_toNat (w : ScheduleWord) : (doubledSlot w).toNat = 2 * (timeSlot w).toNat := by
  have := (timeSlot w).isLt
  have h : BitVec.toNat Config.scale = 2 := rfl
  rw [doubledSlot, BitVec.toNat_mul, BitVec.toNat_setWidth, h]
  omega

end Sys2Proof.Machine
end

