-- ==== Sys2Proof/Laws/State.lean ====
section
/-! SUPPORT. One lemma per field per update of the state, each true by definition. -/

namespace Sys2Proof.Machine

/-! ### emit -/

@[simp] theorem emit_currentFrame (e : Event) (s : State) :
    (emit e s).currentFrame = s.currentFrame := rfl
@[simp] theorem emit_currentPeriod (e : Event) (s : State) :
    (emit e s).currentPeriod = s.currentPeriod := rfl
@[simp] theorem emit_scanPosition (e : Event) (s : State) :
    (emit e s).scanPosition = s.scanPosition := rfl
@[simp] theorem emit_elapsedFrameTime (e : Event) (s : State) :
    (emit e s).elapsedFrameTime = s.elapsedFrameTime := rfl
@[simp] theorem emit_latchedTask (e : Event) (s : State) :
    (emit e s).latchedTask = s.latchedTask := rfl
@[simp] theorem emit_active (e : Event) (s : State) : (emit e s).active = s.active := rfl
@[simp] theorem emit_staging (e : Event) (s : State) : (emit e s).staging = s.staging := rfl
@[simp] theorem emit_nextHandle (e : Event) (s : State) :
    (emit e s).nextHandle = s.nextHandle := rfl
@[simp] theorem emit_initialized (e : Event) (s : State) :
    (emit e s).initialized = s.initialized := rfl
@[simp] theorem emit_fault (e : Event) (s : State) : (emit e s).fault = s.fault := rfl
@[simp] theorem emit_faultCode (e : Event) (s : State) : (emit e s).faultCode = s.faultCode := rfl
@[simp] theorem emit_tickMask (e : Event) (s : State) : (emit e s).tickMask = s.tickMask := rfl
@[simp] theorem emit_deadlineLast (e : Event) (s : State) :
    (emit e s).deadlineLast = s.deadlineLast := rfl
@[simp] theorem emit_trace (e : Event) (s : State) : (emit e s).trace = s.trace ++ [e] := rfl
@[simp] theorem emit_capacity (e : Event) (s : State) : (emit e s).capacity = s.capacity := rfl
@[simp] theorem emit_port (e : Event) (s : State) : (emit e s).port = s.port := rfl

/-! ### respond -/

@[simp] theorem respond_currentFrame (r : Response) (s : State) :
    (respond r s).currentFrame = s.currentFrame := rfl
@[simp] theorem respond_currentPeriod (r : Response) (s : State) :
    (respond r s).currentPeriod = s.currentPeriod := rfl
@[simp] theorem respond_scanPosition (r : Response) (s : State) :
    (respond r s).scanPosition = s.scanPosition := rfl
@[simp] theorem respond_elapsedFrameTime (r : Response) (s : State) :
    (respond r s).elapsedFrameTime = s.elapsedFrameTime := rfl
@[simp] theorem respond_latchedTask (r : Response) (s : State) :
    (respond r s).latchedTask = s.latchedTask := rfl
@[simp] theorem respond_active (r : Response) (s : State) : (respond r s).active = s.active := rfl
@[simp] theorem respond_staging (r : Response) (s : State) :
    (respond r s).staging = s.staging := rfl
@[simp] theorem respond_nextHandle (r : Response) (s : State) :
    (respond r s).nextHandle = s.nextHandle := rfl
@[simp] theorem respond_initialized (r : Response) (s : State) :
    (respond r s).initialized = s.initialized := rfl
@[simp] theorem respond_fault (r : Response) (s : State) : (respond r s).fault = s.fault := rfl
@[simp] theorem respond_faultCode (r : Response) (s : State) :
    (respond r s).faultCode = s.faultCode := rfl
@[simp] theorem respond_tickMask (r : Response) (s : State) :
    (respond r s).tickMask = s.tickMask := rfl
@[simp] theorem respond_deadlineLast (r : Response) (s : State) :
    (respond r s).deadlineLast = s.deadlineLast := rfl
@[simp] theorem respond_trace (r : Response) (s : State) :
    (respond r s).trace = s.trace ++ [.response r] := rfl
@[simp] theorem respond_capacity (r : Response) (s : State) :
    (respond r s).capacity = s.capacity := rfl
@[simp] theorem respond_port (r : Response) (s : State) : (respond r s).port = s.port := rfl

/-! ### refuse -/

@[simp] theorem refuse_currentFrame (reason : RefusalReason) (s : State) :
    (refuse reason s).currentFrame = s.currentFrame := rfl
@[simp] theorem refuse_currentPeriod (reason : RefusalReason) (s : State) :
    (refuse reason s).currentPeriod = s.currentPeriod := rfl
@[simp] theorem refuse_scanPosition (reason : RefusalReason) (s : State) :
    (refuse reason s).scanPosition = s.scanPosition := rfl
@[simp] theorem refuse_elapsedFrameTime (reason : RefusalReason) (s : State) :
    (refuse reason s).elapsedFrameTime = s.elapsedFrameTime := rfl
@[simp] theorem refuse_latchedTask (reason : RefusalReason) (s : State) :
    (refuse reason s).latchedTask = s.latchedTask := rfl
@[simp] theorem refuse_active (reason : RefusalReason) (s : State) :
    (refuse reason s).active = s.active := rfl
@[simp] theorem refuse_staging (reason : RefusalReason) (s : State) :
    (refuse reason s).staging = s.staging := rfl
@[simp] theorem refuse_nextHandle (reason : RefusalReason) (s : State) :
    (refuse reason s).nextHandle = s.nextHandle := rfl
@[simp] theorem refuse_initialized (reason : RefusalReason) (s : State) :
    (refuse reason s).initialized = s.initialized := rfl
@[simp] theorem refuse_fault (reason : RefusalReason) (s : State) :
    (refuse reason s).fault = s.fault := rfl
@[simp] theorem refuse_faultCode (reason : RefusalReason) (s : State) :
    (refuse reason s).faultCode = s.faultCode := rfl
@[simp] theorem refuse_tickMask (reason : RefusalReason) (s : State) :
    (refuse reason s).tickMask = s.tickMask := rfl
@[simp] theorem refuse_deadlineLast (reason : RefusalReason) (s : State) :
    (refuse reason s).deadlineLast = s.deadlineLast := rfl
@[simp] theorem refuse_trace (reason : RefusalReason) (s : State) :
    (refuse reason s).trace = s.trace ++ [.response (.refused reason)] := rfl
@[simp] theorem refuse_capacity (reason : RefusalReason) (s : State) :
    (refuse reason s).capacity = s.capacity := rfl
@[simp] theorem refuse_port (reason : RefusalReason) (s : State) :
    (refuse reason s).port = s.port := rfl

/-! ### raiseFault -/

@[simp] theorem raiseFault_currentFrame (code : BitVec 2) (s : State) :
    (raiseFault code s).currentFrame = s.currentFrame := rfl
@[simp] theorem raiseFault_currentPeriod (code : BitVec 2) (s : State) :
    (raiseFault code s).currentPeriod = s.currentPeriod := rfl
@[simp] theorem raiseFault_scanPosition (code : BitVec 2) (s : State) :
    (raiseFault code s).scanPosition = s.scanPosition := rfl
@[simp] theorem raiseFault_elapsedFrameTime (code : BitVec 2) (s : State) :
    (raiseFault code s).elapsedFrameTime = s.elapsedFrameTime := rfl
@[simp] theorem raiseFault_latchedTask (code : BitVec 2) (s : State) :
    (raiseFault code s).latchedTask = s.latchedTask := rfl
@[simp] theorem raiseFault_active (code : BitVec 2) (s : State) :
    (raiseFault code s).active = s.active := rfl
@[simp] theorem raiseFault_staging (code : BitVec 2) (s : State) :
    (raiseFault code s).staging = s.staging := rfl
@[simp] theorem raiseFault_nextHandle (code : BitVec 2) (s : State) :
    (raiseFault code s).nextHandle = s.nextHandle := rfl
@[simp] theorem raiseFault_initialized (code : BitVec 2) (s : State) :
    (raiseFault code s).initialized = s.initialized := rfl
@[simp] theorem raiseFault_fault (code : BitVec 2) (s : State) :
    (raiseFault code s).fault = true := rfl
@[simp] theorem raiseFault_faultCode (code : BitVec 2) (s : State) :
    (raiseFault code s).faultCode = code := rfl
@[simp] theorem raiseFault_tickMask (code : BitVec 2) (s : State) :
    (raiseFault code s).tickMask = s.tickMask := rfl
@[simp] theorem raiseFault_deadlineLast (code : BitVec 2) (s : State) :
    (raiseFault code s).deadlineLast = s.deadlineLast := rfl
@[simp] theorem raiseFault_trace (code : BitVec 2) (s : State) :
    (raiseFault code s).trace = s.trace ++ [.fault code] ++ [.response (.fault code)] := rfl
@[simp] theorem raiseFault_capacity (code : BitVec 2) (s : State) :
    (raiseFault code s).capacity = s.capacity := rfl
@[simp] theorem raiseFault_port (code : BitVec 2) (s : State) :
    (raiseFault code s).port = s.port := rfl

/-! ### maskTick -/

@[simp] theorem maskTick_currentFrame (s : State) :
    (maskTick s).currentFrame = s.currentFrame := rfl
@[simp] theorem maskTick_currentPeriod (s : State) :
    (maskTick s).currentPeriod = s.currentPeriod := rfl
@[simp] theorem maskTick_scanPosition (s : State) :
    (maskTick s).scanPosition = s.scanPosition := rfl
@[simp] theorem maskTick_elapsedFrameTime (s : State) :
    (maskTick s).elapsedFrameTime = s.elapsedFrameTime := rfl
@[simp] theorem maskTick_latchedTask (s : State) : (maskTick s).latchedTask = s.latchedTask := rfl
@[simp] theorem maskTick_active (s : State) : (maskTick s).active = s.active := rfl
@[simp] theorem maskTick_staging (s : State) : (maskTick s).staging = s.staging := rfl
@[simp] theorem maskTick_nextHandle (s : State) : (maskTick s).nextHandle = s.nextHandle := rfl
@[simp] theorem maskTick_initialized (s : State) : (maskTick s).initialized = s.initialized := rfl
@[simp] theorem maskTick_fault (s : State) : (maskTick s).fault = s.fault := rfl
@[simp] theorem maskTick_faultCode (s : State) : (maskTick s).faultCode = s.faultCode := rfl
@[simp] theorem maskTick_tickMask (s : State) : (maskTick s).tickMask = true := rfl
@[simp] theorem maskTick_deadlineLast (s : State) :
    (maskTick s).deadlineLast = s.deadlineLast := rfl
@[simp] theorem maskTick_trace (s : State) : (maskTick s).trace = s.trace ++ [.maskTick] := rfl
@[simp] theorem maskTick_capacity (s : State) : (maskTick s).capacity = s.capacity := rfl
@[simp] theorem maskTick_port (s : State) : (maskTick s).port = s.port := rfl

/-! ### unmaskTick -/

@[simp] theorem unmaskTick_currentFrame (s : State) :
    (unmaskTick s).currentFrame = s.currentFrame := rfl
@[simp] theorem unmaskTick_currentPeriod (s : State) :
    (unmaskTick s).currentPeriod = s.currentPeriod := rfl
@[simp] theorem unmaskTick_scanPosition (s : State) :
    (unmaskTick s).scanPosition = s.scanPosition := rfl
@[simp] theorem unmaskTick_elapsedFrameTime (s : State) :
    (unmaskTick s).elapsedFrameTime = s.elapsedFrameTime := rfl
@[simp] theorem unmaskTick_latchedTask (s : State) :
    (unmaskTick s).latchedTask = s.latchedTask := rfl
@[simp] theorem unmaskTick_active (s : State) : (unmaskTick s).active = s.active := rfl
@[simp] theorem unmaskTick_staging (s : State) : (unmaskTick s).staging = s.staging := rfl
@[simp] theorem unmaskTick_nextHandle (s : State) : (unmaskTick s).nextHandle = s.nextHandle := rfl
@[simp] theorem unmaskTick_initialized (s : State) :
    (unmaskTick s).initialized = s.initialized := rfl
@[simp] theorem unmaskTick_fault (s : State) : (unmaskTick s).fault = s.fault := rfl
@[simp] theorem unmaskTick_faultCode (s : State) : (unmaskTick s).faultCode = s.faultCode := rfl
@[simp] theorem unmaskTick_tickMask (s : State) : (unmaskTick s).tickMask = false := rfl
@[simp] theorem unmaskTick_deadlineLast (s : State) :
    (unmaskTick s).deadlineLast = s.deadlineLast := rfl
@[simp] theorem unmaskTick_trace (s : State) :
    (unmaskTick s).trace = s.trace ++ [.unmaskTick] := rfl
@[simp] theorem unmaskTick_capacity (s : State) : (unmaskTick s).capacity = s.capacity := rfl
@[simp] theorem unmaskTick_port (s : State) : (unmaskTick s).port = s.port := rfl

/-! ### writeDeadline -/

@[simp] theorem writeDeadline_currentFrame (v : Deadline) (s : State) :
    (writeDeadline v s).currentFrame = s.currentFrame := rfl
@[simp] theorem writeDeadline_currentPeriod (v : Deadline) (s : State) :
    (writeDeadline v s).currentPeriod = s.currentPeriod := rfl
@[simp] theorem writeDeadline_scanPosition (v : Deadline) (s : State) :
    (writeDeadline v s).scanPosition = s.scanPosition := rfl
@[simp] theorem writeDeadline_elapsedFrameTime (v : Deadline) (s : State) :
    (writeDeadline v s).elapsedFrameTime = s.elapsedFrameTime := rfl
@[simp] theorem writeDeadline_latchedTask (v : Deadline) (s : State) :
    (writeDeadline v s).latchedTask = s.latchedTask := rfl
@[simp] theorem writeDeadline_active (v : Deadline) (s : State) :
    (writeDeadline v s).active = s.active := rfl
@[simp] theorem writeDeadline_staging (v : Deadline) (s : State) :
    (writeDeadline v s).staging = s.staging := rfl
@[simp] theorem writeDeadline_nextHandle (v : Deadline) (s : State) :
    (writeDeadline v s).nextHandle = s.nextHandle := rfl
@[simp] theorem writeDeadline_initialized (v : Deadline) (s : State) :
    (writeDeadline v s).initialized = s.initialized := rfl
@[simp] theorem writeDeadline_fault (v : Deadline) (s : State) :
    (writeDeadline v s).fault = s.fault := rfl
@[simp] theorem writeDeadline_faultCode (v : Deadline) (s : State) :
    (writeDeadline v s).faultCode = s.faultCode := rfl
@[simp] theorem writeDeadline_tickMask (v : Deadline) (s : State) :
    (writeDeadline v s).tickMask = s.tickMask := rfl
@[simp] theorem writeDeadline_deadlineLast (v : Deadline) (s : State) :
    (writeDeadline v s).deadlineLast = some v := rfl
@[simp] theorem writeDeadline_trace (v : Deadline) (s : State) :
    (writeDeadline v s).trace = s.trace ++ [.writeDeadline v] := rfl
@[simp] theorem writeDeadline_capacity (v : Deadline) (s : State) :
    (writeDeadline v s).capacity = s.capacity := rfl
@[simp] theorem writeDeadline_port (v : Deadline) (s : State) :
    (writeDeadline v s).port = s.port := rfl

/-! ### stgWrite -/

@[simp] theorem stgWrite_currentFrame (i : Nat) (e : StagingEntry) (s : State) :
    (stgWrite i e s).currentFrame = s.currentFrame := rfl
@[simp] theorem stgWrite_currentPeriod (i : Nat) (e : StagingEntry) (s : State) :
    (stgWrite i e s).currentPeriod = s.currentPeriod := rfl
@[simp] theorem stgWrite_scanPosition (i : Nat) (e : StagingEntry) (s : State) :
    (stgWrite i e s).scanPosition = s.scanPosition := rfl
@[simp] theorem stgWrite_elapsedFrameTime (i : Nat) (e : StagingEntry) (s : State) :
    (stgWrite i e s).elapsedFrameTime = s.elapsedFrameTime := rfl
@[simp] theorem stgWrite_latchedTask (i : Nat) (e : StagingEntry) (s : State) :
    (stgWrite i e s).latchedTask = s.latchedTask := rfl
@[simp] theorem stgWrite_active (i : Nat) (e : StagingEntry) (s : State) :
    (stgWrite i e s).active = s.active := rfl
@[simp] theorem stgWrite_staging (i : Nat) (e : StagingEntry) (s : State) :
    (stgWrite i e s).staging = s.staging.set i (some e) := rfl
@[simp] theorem stgWrite_nextHandle (i : Nat) (e : StagingEntry) (s : State) :
    (stgWrite i e s).nextHandle = s.nextHandle := rfl
@[simp] theorem stgWrite_initialized (i : Nat) (e : StagingEntry) (s : State) :
    (stgWrite i e s).initialized = s.initialized := rfl
@[simp] theorem stgWrite_fault (i : Nat) (e : StagingEntry) (s : State) :
    (stgWrite i e s).fault = s.fault := rfl
@[simp] theorem stgWrite_faultCode (i : Nat) (e : StagingEntry) (s : State) :
    (stgWrite i e s).faultCode = s.faultCode := rfl
@[simp] theorem stgWrite_tickMask (i : Nat) (e : StagingEntry) (s : State) :
    (stgWrite i e s).tickMask = s.tickMask := rfl
@[simp] theorem stgWrite_deadlineLast (i : Nat) (e : StagingEntry) (s : State) :
    (stgWrite i e s).deadlineLast = s.deadlineLast := rfl
@[simp] theorem stgWrite_trace (i : Nat) (e : StagingEntry) (s : State) :
    (stgWrite i e s).trace = s.trace := rfl
@[simp] theorem stgWrite_capacity (i : Nat) (e : StagingEntry) (s : State) :
    (stgWrite i e s).capacity = s.capacity := rfl
@[simp] theorem stgWrite_port (i : Nat) (e : StagingEntry) (s : State) :
    (stgWrite i e s).port = s.port := rfl

/-! ### actCopy -/

@[simp] theorem actCopy_currentFrame (s : State) : (actCopy s).currentFrame = s.currentFrame := rfl
@[simp] theorem actCopy_currentPeriod (s : State) :
    (actCopy s).currentPeriod = s.currentPeriod := rfl
@[simp] theorem actCopy_scanPosition (s : State) : (actCopy s).scanPosition = s.scanPosition := rfl
@[simp] theorem actCopy_elapsedFrameTime (s : State) :
    (actCopy s).elapsedFrameTime = s.elapsedFrameTime := rfl
@[simp] theorem actCopy_latchedTask (s : State) : (actCopy s).latchedTask = s.latchedTask := rfl
@[simp] theorem actCopy_active (s : State) :
    (actCopy s).active = s.staging.map (Option.map dropHandle) := rfl
@[simp] theorem actCopy_staging (s : State) : (actCopy s).staging = s.staging := rfl
@[simp] theorem actCopy_nextHandle (s : State) : (actCopy s).nextHandle = s.nextHandle := rfl
@[simp] theorem actCopy_initialized (s : State) : (actCopy s).initialized = s.initialized := rfl
@[simp] theorem actCopy_fault (s : State) : (actCopy s).fault = s.fault := rfl
@[simp] theorem actCopy_faultCode (s : State) : (actCopy s).faultCode = s.faultCode := rfl
@[simp] theorem actCopy_tickMask (s : State) : (actCopy s).tickMask = s.tickMask := rfl
@[simp] theorem actCopy_deadlineLast (s : State) : (actCopy s).deadlineLast = s.deadlineLast := rfl
@[simp] theorem actCopy_trace (s : State) : (actCopy s).trace = s.trace := rfl
@[simp] theorem actCopy_capacity (s : State) : (actCopy s).capacity = s.capacity := rfl
@[simp] theorem actCopy_port (s : State) : (actCopy s).port = s.port := rfl

/-! ### clearTables -/

@[simp] theorem clearTables_currentFrame (s : State) :
    (clearTables s).currentFrame = s.currentFrame := rfl
@[simp] theorem clearTables_currentPeriod (s : State) :
    (clearTables s).currentPeriod = s.currentPeriod := rfl
@[simp] theorem clearTables_scanPosition (s : State) :
    (clearTables s).scanPosition = s.scanPosition := rfl
@[simp] theorem clearTables_elapsedFrameTime (s : State) :
    (clearTables s).elapsedFrameTime = s.elapsedFrameTime := rfl
@[simp] theorem clearTables_latchedTask (s : State) :
    (clearTables s).latchedTask = s.latchedTask := rfl
@[simp] theorem clearTables_active (s : State) :
    (clearTables s).active = List.replicate s.capacity.val none := rfl
@[simp] theorem clearTables_staging (s : State) :
    (clearTables s).staging = List.replicate s.capacity.val none := rfl
@[simp] theorem clearTables_nextHandle (s : State) :
    (clearTables s).nextHandle = s.nextHandle := rfl
@[simp] theorem clearTables_initialized (s : State) :
    (clearTables s).initialized = s.initialized := rfl
@[simp] theorem clearTables_fault (s : State) : (clearTables s).fault = s.fault := rfl
@[simp] theorem clearTables_faultCode (s : State) : (clearTables s).faultCode = s.faultCode := rfl
@[simp] theorem clearTables_tickMask (s : State) : (clearTables s).tickMask = s.tickMask := rfl
@[simp] theorem clearTables_deadlineLast (s : State) :
    (clearTables s).deadlineLast = s.deadlineLast := rfl
@[simp] theorem clearTables_trace (s : State) : (clearTables s).trace = s.trace := rfl
@[simp] theorem clearTables_capacity (s : State) : (clearTables s).capacity = s.capacity := rfl
@[simp] theorem clearTables_port (s : State) : (clearTables s).port = s.port := rfl

/-! ### sortStaging -/

@[simp] theorem sortStaging_currentFrame (s : State) :
    (sortStaging s).currentFrame = s.currentFrame := rfl
@[simp] theorem sortStaging_currentPeriod (s : State) :
    (sortStaging s).currentPeriod = s.currentPeriod := rfl
@[simp] theorem sortStaging_scanPosition (s : State) :
    (sortStaging s).scanPosition = s.scanPosition := rfl
@[simp] theorem sortStaging_elapsedFrameTime (s : State) :
    (sortStaging s).elapsedFrameTime = s.elapsedFrameTime := rfl
@[simp] theorem sortStaging_latchedTask (s : State) :
    (sortStaging s).latchedTask = s.latchedTask := rfl
@[simp] theorem sortStaging_active (s : State) : (sortStaging s).active = s.active := rfl
@[simp] theorem sortStaging_staging (s : State) :
    (sortStaging s).staging = (sortBySlot (stagedEntries s.staging)).map some ++ s.staging.dropWhile Option.isSome := rfl
@[simp] theorem sortStaging_nextHandle (s : State) :
    (sortStaging s).nextHandle = s.nextHandle := rfl
@[simp] theorem sortStaging_initialized (s : State) :
    (sortStaging s).initialized = s.initialized := rfl
@[simp] theorem sortStaging_fault (s : State) : (sortStaging s).fault = s.fault := rfl
@[simp] theorem sortStaging_faultCode (s : State) : (sortStaging s).faultCode = s.faultCode := rfl
@[simp] theorem sortStaging_tickMask (s : State) : (sortStaging s).tickMask = s.tickMask := rfl
@[simp] theorem sortStaging_deadlineLast (s : State) :
    (sortStaging s).deadlineLast = s.deadlineLast := rfl
@[simp] theorem sortStaging_trace (s : State) : (sortStaging s).trace = s.trace := rfl
@[simp] theorem sortStaging_capacity (s : State) : (sortStaging s).capacity = s.capacity := rfl
@[simp] theorem sortStaging_port (s : State) : (sortStaging s).port = s.port := rfl

/-! ### fadv -/

@[simp] theorem fadv_currentFrame (s : State) :
    (fadv s).currentFrame = (nextFramePeriod s.currentFrame s.currentPeriod).1 := rfl
@[simp] theorem fadv_currentPeriod (s : State) :
    (fadv s).currentPeriod = (nextFramePeriod s.currentFrame s.currentPeriod).2 := rfl
@[simp] theorem fadv_scanPosition (s : State) : (fadv s).scanPosition = 0 := rfl
@[simp] theorem fadv_elapsedFrameTime (s : State) : (fadv s).elapsedFrameTime = 0 := rfl
@[simp] theorem fadv_latchedTask (s : State) : (fadv s).latchedTask = s.latchedTask := rfl
@[simp] theorem fadv_active (s : State) : (fadv s).active = s.active := rfl
@[simp] theorem fadv_staging (s : State) : (fadv s).staging = s.staging := rfl
@[simp] theorem fadv_nextHandle (s : State) : (fadv s).nextHandle = s.nextHandle := rfl
@[simp] theorem fadv_initialized (s : State) : (fadv s).initialized = s.initialized := rfl
@[simp] theorem fadv_fault (s : State) : (fadv s).fault = s.fault := rfl
@[simp] theorem fadv_faultCode (s : State) : (fadv s).faultCode = s.faultCode := rfl
@[simp] theorem fadv_tickMask (s : State) : (fadv s).tickMask = s.tickMask := rfl
@[simp] theorem fadv_deadlineLast (s : State) : (fadv s).deadlineLast = s.deadlineLast := rfl
@[simp] theorem fadv_trace (s : State) : (fadv s).trace = s.trace := rfl
@[simp] theorem fadv_capacity (s : State) : (fadv s).capacity = s.capacity := rfl
@[simp] theorem fadv_port (s : State) : (fadv s).port = s.port := rfl

/-! ### deadlineStage -/

@[simp] theorem deadlineStage_currentFrame (e : ActiveEntry) (s : State) :
    (deadlineStage e s).currentFrame = s.currentFrame := rfl
@[simp] theorem deadlineStage_currentPeriod (e : ActiveEntry) (s : State) :
    (deadlineStage e s).currentPeriod = s.currentPeriod := rfl
@[simp] theorem deadlineStage_scanPosition (e : ActiveEntry) (s : State) :
    (deadlineStage e s).scanPosition = s.scanPosition := rfl
@[simp] theorem deadlineStage_elapsedFrameTime (e : ActiveEntry) (s : State) :
    (deadlineStage e s).elapsedFrameTime = doubledSlot e.word := rfl
@[simp] theorem deadlineStage_latchedTask (e : ActiveEntry) (s : State) :
    (deadlineStage e s).latchedTask = s.latchedTask := rfl
@[simp] theorem deadlineStage_active (e : ActiveEntry) (s : State) :
    (deadlineStage e s).active = s.active := rfl
@[simp] theorem deadlineStage_staging (e : ActiveEntry) (s : State) :
    (deadlineStage e s).staging = s.staging := rfl
@[simp] theorem deadlineStage_nextHandle (e : ActiveEntry) (s : State) :
    (deadlineStage e s).nextHandle = s.nextHandle := rfl
@[simp] theorem deadlineStage_initialized (e : ActiveEntry) (s : State) :
    (deadlineStage e s).initialized = s.initialized := rfl
@[simp] theorem deadlineStage_fault (e : ActiveEntry) (s : State) :
    (deadlineStage e s).fault = s.fault := rfl
@[simp] theorem deadlineStage_faultCode (e : ActiveEntry) (s : State) :
    (deadlineStage e s).faultCode = s.faultCode := rfl
@[simp] theorem deadlineStage_tickMask (e : ActiveEntry) (s : State) :
    (deadlineStage e s).tickMask = s.tickMask := rfl
@[simp] theorem deadlineStage_deadlineLast (e : ActiveEntry) (s : State) :
    (deadlineStage e s).deadlineLast = some (deadlineValue (doubledSlot e.word) s.elapsedFrameTime) := rfl
@[simp] theorem deadlineStage_trace (e : ActiveEntry) (s : State) :
    (deadlineStage e s).trace = s.trace ++ [.writeDeadline (deadlineValue (doubledSlot e.word) s.elapsedFrameTime)] := rfl
@[simp] theorem deadlineStage_capacity (e : ActiveEntry) (s : State) :
    (deadlineStage e s).capacity = s.capacity := rfl
@[simp] theorem deadlineStage_port (e : ActiveEntry) (s : State) :
    (deadlineStage e s).port = s.port := rfl

/-! ### latchStage -/

@[simp] theorem latchStage_currentFrame (e : ActiveEntry) (s : State) :
    (latchStage e s).currentFrame = s.currentFrame := rfl
@[simp] theorem latchStage_currentPeriod (e : ActiveEntry) (s : State) :
    (latchStage e s).currentPeriod = s.currentPeriod := rfl
@[simp] theorem latchStage_scanPosition (e : ActiveEntry) (s : State) :
    (latchStage e s).scanPosition = s.scanPosition := rfl
@[simp] theorem latchStage_elapsedFrameTime (e : ActiveEntry) (s : State) :
    (latchStage e s).elapsedFrameTime = s.elapsedFrameTime := rfl
@[simp] theorem latchStage_latchedTask (e : ActiveEntry) (s : State) :
    (latchStage e s).latchedTask = some e.cb := rfl
@[simp] theorem latchStage_active (e : ActiveEntry) (s : State) :
    (latchStage e s).active = s.active := rfl
@[simp] theorem latchStage_staging (e : ActiveEntry) (s : State) :
    (latchStage e s).staging = s.staging := rfl
@[simp] theorem latchStage_nextHandle (e : ActiveEntry) (s : State) :
    (latchStage e s).nextHandle = s.nextHandle := rfl
@[simp] theorem latchStage_initialized (e : ActiveEntry) (s : State) :
    (latchStage e s).initialized = s.initialized := rfl
@[simp] theorem latchStage_fault (e : ActiveEntry) (s : State) :
    (latchStage e s).fault = s.fault := rfl
@[simp] theorem latchStage_faultCode (e : ActiveEntry) (s : State) :
    (latchStage e s).faultCode = s.faultCode := rfl
@[simp] theorem latchStage_tickMask (e : ActiveEntry) (s : State) :
    (latchStage e s).tickMask = s.tickMask := rfl
@[simp] theorem latchStage_deadlineLast (e : ActiveEntry) (s : State) :
    (latchStage e s).deadlineLast = s.deadlineLast := rfl
@[simp] theorem latchStage_trace (e : ActiveEntry) (s : State) :
    (latchStage e s).trace = s.trace := rfl
@[simp] theorem latchStage_capacity (e : ActiveEntry) (s : State) :
    (latchStage e s).capacity = s.capacity := rfl
@[simp] theorem latchStage_port (e : ActiveEntry) (s : State) :
    (latchStage e s).port = s.port := rfl

/-! ### hardReset and the reset state -/

@[simp] theorem resetOf_currentFrame (n : Config.Capacity) : (State.resetOf n).currentFrame = 0 := rfl
@[simp] theorem resetOf_currentPeriod (n : Config.Capacity) : (State.resetOf n).currentPeriod = 0 := rfl
@[simp] theorem resetOf_scanPosition (n : Config.Capacity) : (State.resetOf n).scanPosition = 0 := rfl
@[simp] theorem resetOf_elapsedFrameTime (n : Config.Capacity) : (State.resetOf n).elapsedFrameTime = 0 := rfl
@[simp] theorem resetOf_latchedTask (n : Config.Capacity) : (State.resetOf n).latchedTask = none := rfl
@[simp] theorem resetOf_active (n : Config.Capacity) : (State.resetOf n).active = List.replicate n.val none := rfl
@[simp] theorem resetOf_staging (n : Config.Capacity) : (State.resetOf n).staging = List.replicate n.val none := rfl
@[simp] theorem resetOf_nextHandle (n : Config.Capacity) : (State.resetOf n).nextHandle = 0 := rfl
@[simp] theorem resetOf_initialized (n : Config.Capacity) : (State.resetOf n).initialized = false := rfl
@[simp] theorem resetOf_fault (n : Config.Capacity) : (State.resetOf n).fault = false := rfl
@[simp] theorem resetOf_faultCode (n : Config.Capacity) : (State.resetOf n).faultCode = 0 := rfl
@[simp] theorem resetOf_tickMask (n : Config.Capacity) : (State.resetOf n).tickMask = false := rfl
@[simp] theorem resetOf_deadlineLast (n : Config.Capacity) : (State.resetOf n).deadlineLast = none := rfl
@[simp] theorem resetOf_trace (n : Config.Capacity) : (State.resetOf n).trace = [] := rfl
@[simp] theorem resetOf_capacity (n : Config.Capacity) : (State.resetOf n).capacity = n := rfl
@[simp] theorem resetOf_port (n : Config.Capacity) : (State.resetOf n).port = [] := rfl

@[simp] theorem hardReset_port (s : State) : (hardReset s).port = s.port := rfl

@[simp] theorem hardReset_capacity (s : State) : (hardReset s).capacity = s.capacity := rfl

/-! ### The two halves -/

theorem dispatcherHalf_eq_iff (s t : State) : dispatcherHalf s = dispatcherHalf t ↔
    s.currentFrame = t.currentFrame ∧ s.currentPeriod = t.currentPeriod ∧
      s.scanPosition = t.scanPosition ∧ s.elapsedFrameTime = t.elapsedFrameTime ∧
      s.latchedTask = t.latchedTask ∧ s.active = t.active ∧ s.fault = t.fault ∧
      s.faultCode = t.faultCode ∧ s.capacity = t.capacity := by
  simp [dispatcherHalf]

theorem mutatorHalf_eq_iff (s t : State) : mutatorHalf s = mutatorHalf t ↔
    s.staging = t.staging ∧ s.nextHandle = t.nextHandle ∧ s.initialized = t.initialized := by
  simp [mutatorHalf]

end Sys2Proof.Machine
end

