-- ==== Sys2Proof/Laws/Tables.lean ====
section
/-! SUPPORT. The laws of the two tables: reading after writing (20_memory.md R57), the packed form (R54,
R55) and what every operation keeps of the tables' form. -/

namespace Sys2Proof.Machine

open Sys2Proof

section Slots

variable {α β : Type}

theorem getD_eq_none_of_length_le (l : List (Option α)) {i : Nat} (h : l.length ≤ i) :
    l.getD i none = none := by
  simp [List.getD, List.getElem?_eq_none h]

theorem lt_length_of_getD_some {l : List (Option α)} {i : Nat} {a : α}
    (h : l.getD i none = some a) : i < l.length := by
  by_contra hc
  rw [getD_eq_none_of_length_le l (by omega)] at h
  exact absurd h (by simp)

theorem getD_set_self (l : List (Option α)) (i : Nat) (a : Option α) (h : i < l.length) :
    (l.set i a).getD i none = a := by
  simp [List.getD, h]

theorem getD_set_ne (l : List (Option α)) (i j : Nat) (a : Option α) (h : i ≠ j) :
    (l.set i a).getD j none = l.getD j none := by
  simp [List.getD, List.getElem?_set_ne h]

theorem getD_map_option (f : α → β) (l : List (Option α)) (i : Nat) :
    (l.map (Option.map f)).getD i none = (l.getD i none).map f := by
  simp only [List.getD, List.getElem?_map]
  cases l[i]? <;> rfl

theorem getD_replicate_none (n i : Nat) : (List.replicate n (none : Option α)).getD i none = none := by
  simp [List.getD, List.getElem?_replicate]
  split <;> rfl

/-- The packed form, as a list: the valid entries in front, empty slots behind. -/
theorem validBelow_iff (l : List (Option α)) (k : Nat) :
    ValidBelow l k ↔ ∃ es : List α, es.length = k ∧ k ≤ l.length ∧
      l = es.map some ++ List.replicate (l.length - k) none := by
  constructor
  · rintro ⟨hk, h⟩
    induction l generalizing k with
    | nil => exact ⟨[], by simp at hk ⊢; omega⟩
    | cons o l ih =>
      cases k with
      | zero =>
        refine ⟨[], rfl, by simp, ?_⟩
        simp only [List.map_nil, List.nil_append, Nat.sub_zero]
        refine List.eq_replicate_iff.2 ⟨rfl, fun b hb => ?_⟩
        obtain ⟨i, hi, rfl⟩ := List.getElem_of_mem hb
        have := h i hi
        simp only [Nat.not_lt_zero, iff_false, List.getD, List.getElem?_eq_getElem hi,
          Option.getD_some] at this
        simpa using this
      | succ k =>
        have h0 := (h 0 (by simp)).2 (by omega)
        cases o with
        | none => exact absurd h0 (by simp [List.getD])
        | some a =>
          obtain ⟨es, he, hl, hes⟩ := ih k (by simpa using hk) (fun i hi => by
            have := h (i + 1) (by simpa using hi)
            simpa [List.getD] using this)
          refine ⟨a :: es, by simp [he], by simpa using hl, ?_⟩
          simp only [List.map_cons, List.cons_append, List.length_cons, Nat.add_sub_add_right]
          rw [← hes]
  · rintro ⟨es, rfl, hk, hl⟩
    refine ⟨hk, fun i hi => ?_⟩
    rw [hl]
    by_cases hi' : i < es.length
    · simp [List.getD, List.getElem?_append_left, hi']
    · simp only [List.getD, hi', iff_false]
      rw [List.getElem?_append_right (by simp; omega)]
      simp only [List.getElem?_replicate]
      split <;> simp

theorem validBelow_append (es : List α) (n : Nat) :
    ValidBelow (es.map some ++ List.replicate n none) es.length :=
  (validBelow_iff _ _).2 ⟨es, rfl, by simp, by simp⟩

theorem validBelow_replicate (n : Nat) : ValidBelow (List.replicate n (none : Option α)) 0 := by
  simpa using validBelow_append ([] : List α) n

theorem ValidBelow.map (f : α → β) {l : List (Option α)} {k : Nat} (h : ValidBelow l k) :
    ValidBelow (l.map (Option.map f)) k := by
  refine ⟨by simpa using h.1, fun i hi => ?_⟩
  rw [getD_map_option]
  simpa using h.2 i (by simpa using hi)

theorem ValidBelow.isSome_iff {l : List (Option α)} {k : Nat} (h : ValidBelow l k) (i : Nat) :
    (l.getD i none).isSome = true ↔ i < k := by
  by_cases hi : i < l.length
  · exact h.2 i hi
  · rw [getD_eq_none_of_length_le l (by omega)]
    have := h.1
    simp; omega

end Slots

/-! ### The access primitives -/

theorem actRead_eq_none_of_le (s : State) {i : Nat} (h : s.active.length ≤ i) : actRead s i = none :=
  getD_eq_none_of_length_le _ h

theorem stgRead_eq_none_of_le (s : State) {i : Nat} (h : s.staging.length ≤ i) : stgRead s i = none :=
  getD_eq_none_of_length_le _ h

theorem lt_length_of_actRead {s : State} {i : Nat} {e : ActiveEntry} (h : actRead s i = some e) :
    i < s.active.length :=
  lt_length_of_getD_some h

theorem lt_length_of_stgRead {s : State} {i : Nat} {e : StagingEntry} (h : stgRead s i = some e) :
    i < s.staging.length :=
  lt_length_of_getD_some h

/-- A read after a write to the same slot gives the entry written. -/
theorem stgRead_stgWrite_self (i : Nat) (e : StagingEntry) (s : State) (h : i < s.staging.length) :
    stgRead (stgWrite i e s) i = some e :=
  getD_set_self _ _ _ h

/-- A write leaves every other slot alone. -/
theorem stgRead_stgWrite_ne (i j : Nat) (e : StagingEntry) (s : State) (h : i ≠ j) :
    stgRead (stgWrite i e s) j = stgRead s j :=
  getD_set_ne _ _ _ _ h

@[simp] theorem actRead_stgWrite (i j : Nat) (e : StagingEntry) (s : State) :
    actRead (stgWrite i e s) j = actRead s j := rfl

/-- The bulk copy: every active slot reads as the staging slot without its handle (20_memory.md R58). -/
theorem actRead_actCopy (s : State) (i : Nat) :
    actRead (actCopy s) i = (stgRead s i).map dropHandle :=
  getD_map_option dropHandle s.staging i

@[simp] theorem actRead_clearTables (s : State) (i : Nat) : actRead (clearTables s) i = none :=
  getD_replicate_none _ _

@[simp] theorem stgRead_clearTables (s : State) (i : Nat) : stgRead (clearTables s) i = none :=
  getD_replicate_none _ _

/-- Reads depend on the tables alone. -/
theorem actRead_congr {s t : State} (h : s.active = t.active) (i : Nat) : actRead s i = actRead t i := by
  unfold actRead; rw [h]

theorem stgRead_congr {s t : State} (h : s.staging = t.staging) (i : Nat) :
    stgRead s i = stgRead t i := by
  unfold stgRead; rw [h]

theorem matchesNow_congr {s t : State} (hf : s.currentFrame = t.currentFrame)
    (hp : s.currentPeriod = t.currentPeriod) (w : ScheduleWord) : matchesNow s w = matchesNow t w := by
  unfold matchesNow; rw [hf, hp]

/-! ### Every operation keeps the form of the tables -/

theorem stgWrite_keeps_wf (i : Nat) (e : StagingEntry) {s : State} (h : Memory.wf s) :
    Memory.wf (stgWrite i e s) := by
  simpa [Memory.wf] using h

theorem actCopy_keeps_wf {s : State} (h : Memory.wf s) : Memory.wf (actCopy s) := by
  simpa [Memory.wf] using h.2

theorem clearTables_wf (s : State) : Memory.wf (clearTables s) := by simp [Memory.wf]

theorem resetOf_wf (n : Config.Capacity) : Memory.wf (State.resetOf n) := by simp [Memory.wf]

theorem reset_wf : Memory.wf State.reset := resetOf_wf _

theorem emit_keeps_wf (e : Event) {s : State} (h : Memory.wf s) : Memory.wf (emit e s) := h

theorem hardReset_wf (s : State) : Memory.wf (hardReset s) := by
  simp [Memory.wf, hardReset]

end Sys2Proof.Machine
end

