-- ==== Sys2Proof/Laws/Dispatcher.lean ====
section
/-! SUPPORT. What the stages of TICK do: one lemma per stage, cited instead of unfolding it
(42_dispatcher.md R132 to R138). -/

namespace Sys2Proof.Machine

open Sys2Proof

/-! ### FIRE -/

theorem fireStage_none {s : State} (h : s.latchedTask = none) : fireStage s = s := by
  unfold fireStage; rw [h]

theorem fireStage_fadv {s : State} (h : s.latchedTask = some Config.cbFadv) :
    fireStage s = fadv (emit (.fire Config.cbFadv) s) := by
  unfold fireStage; rw [h]; simp

theorem fireStage_some {s : State} {cb : CallbackId} (h : s.latchedTask = some cb)
    (hcb : cb ≠ Config.cbFadv) : fireStage s = emit (.fire cb) s := by
  unfold fireStage; rw [h]; simp [hcb]

/-- FIRE in one line: the events, then the frame advance if it is due. -/
theorem fireStage_cases (s : State) :
    (s.latchedTask = none ∧ fireStage s = s) ∨
    (s.latchedTask = some Config.cbFadv ∧ fireStage s = fadv (emit (.fire Config.cbFadv) s)) ∨
    (∃ cb, cb ≠ Config.cbFadv ∧ s.latchedTask = some cb ∧ fireStage s = emit (.fire cb) s) := by
  rcases hl : s.latchedTask with _ | cb
  · exact .inl ⟨rfl, fireStage_none hl⟩
  · by_cases hcb : cb = Config.cbFadv
    · subst hcb
      exact .inr (.inl ⟨rfl, fireStage_fadv hl⟩)
    · exact .inr (.inr ⟨cb, hcb, rfl, fireStage_some hl hcb⟩)

section FireFrame

variable (s : State)

theorem fireStage_frame :
    (fireStage s).latchedTask = s.latchedTask ∧ (fireStage s).active = s.active ∧
    (fireStage s).staging = s.staging ∧ (fireStage s).nextHandle = s.nextHandle ∧
    (fireStage s).initialized = s.initialized ∧ (fireStage s).fault = s.fault ∧
    (fireStage s).faultCode = s.faultCode ∧ (fireStage s).tickMask = s.tickMask ∧
    (fireStage s).deadlineLast = s.deadlineLast ∧ (fireStage s).capacity = s.capacity ∧
    (fireStage s).port = s.port ∧
    (fireStage s).trace = s.trace ++ (s.latchedTask.map Event.fire).toList := by
  rcases fireStage_cases s with ⟨hl, h⟩ | ⟨hl, h⟩ | ⟨cb, -, hl, h⟩ <;> rw [h, hl] <;> simp [hl]

@[simp] theorem fireStage_latchedTask : (fireStage s).latchedTask = s.latchedTask :=
  (fireStage_frame s).1
@[simp] theorem fireStage_active : (fireStage s).active = s.active := (fireStage_frame s).2.1
@[simp] theorem fireStage_staging : (fireStage s).staging = s.staging := (fireStage_frame s).2.2.1
@[simp] theorem fireStage_nextHandle : (fireStage s).nextHandle = s.nextHandle :=
  (fireStage_frame s).2.2.2.1
@[simp] theorem fireStage_initialized : (fireStage s).initialized = s.initialized :=
  (fireStage_frame s).2.2.2.2.1
@[simp] theorem fireStage_fault : (fireStage s).fault = s.fault := (fireStage_frame s).2.2.2.2.2.1
@[simp] theorem fireStage_faultCode : (fireStage s).faultCode = s.faultCode :=
  (fireStage_frame s).2.2.2.2.2.2.1
@[simp] theorem fireStage_tickMask : (fireStage s).tickMask = s.tickMask :=
  (fireStage_frame s).2.2.2.2.2.2.2.1
@[simp] theorem fireStage_deadlineLast : (fireStage s).deadlineLast = s.deadlineLast :=
  (fireStage_frame s).2.2.2.2.2.2.2.2.1
@[simp] theorem fireStage_capacity : (fireStage s).capacity = s.capacity :=
  (fireStage_frame s).2.2.2.2.2.2.2.2.2.1
@[simp] theorem fireStage_port : (fireStage s).port = s.port :=
  (fireStage_frame s).2.2.2.2.2.2.2.2.2.2.1
theorem fireStage_trace :
    (fireStage s).trace = s.trace ++ (s.latchedTask.map Event.fire).toList :=
  (fireStage_frame s).2.2.2.2.2.2.2.2.2.2.2

@[simp] theorem actRead_fireStage (i : Nat) : actRead (fireStage s) i = actRead s i :=
  actRead_congr (fireStage_active s) i

/-- FIRE never moves the scan forward, and moves it only to the start. -/
theorem fireStage_scanPosition :
    (fireStage s).scanPosition =
      if s.latchedTask = some Config.cbFadv then 0 else s.scanPosition := by
  rcases fireStage_cases s with ⟨hl, h⟩ | ⟨hl, h⟩ | ⟨cb, hcb, hl, h⟩ <;> rw [h] <;> simp [hl]
  intro hc
  exact absurd hc hcb

theorem fireStage_elapsedFrameTime :
    (fireStage s).elapsedFrameTime =
      if s.latchedTask = some Config.cbFadv then 0 else s.elapsedFrameTime := by
  rcases fireStage_cases s with ⟨hl, h⟩ | ⟨hl, h⟩ | ⟨cb, hcb, hl, h⟩ <;> rw [h] <;> simp [hl]
  intro hc
  exact absurd hc hcb

theorem fireStage_framePeriod :
    ((fireStage s).currentFrame, (fireStage s).currentPeriod) =
      if s.latchedTask = some Config.cbFadv then nextFramePeriod s.currentFrame s.currentPeriod
      else (s.currentFrame, s.currentPeriod) := by
  rcases fireStage_cases s with ⟨hl, h⟩ | ⟨hl, h⟩ | ⟨cb, hcb, hl, h⟩ <;> rw [h] <;> simp [hl]
  intro hc
  exact absurd hc hcb

end FireFrame

/-! ### SCAN -/

/-- The entries from `i` up to `j` are valid and do not match. -/
def PassedOver (s : State) (i j : Nat) : Prop :=
  ∀ k, i ≤ k → k < j → ∃ e, actRead s k = some e ∧ matchesNow s e.word = false

theorem scanLoop_found_iff (s : State) (fuel i j : Nat) (e : ActiveEntry) :
    scanLoop s fuel i = .found j e ↔
      i ≤ j ∧ j < i + fuel ∧ actRead s j = some e ∧ matchesNow s e.word = true ∧ PassedOver s i j := by
  induction fuel generalizing i with
  | zero => simp [scanLoop]; omega
  | succ fuel ih =>
    unfold scanLoop
    rcases hr : actRead s i with _ | a
    · simp only [reduceCtorEq, false_iff]
      rintro ⟨hij, -, hj, -, hp⟩
      rcases Nat.eq_or_lt_of_le hij with rfl | hlt
      · rw [hr] at hj; exact absurd hj (by simp)
      · obtain ⟨e', he', -⟩ := hp i (Nat.le_refl _) hlt
        rw [hr] at he'; exact absurd he' (by simp)
    · by_cases hm : matchesNow s a.word = true
      · simp only [hm, if_true, ScanResult.found.injEq]
        constructor
        · rintro ⟨rfl, rfl⟩
          exact ⟨Nat.le_refl _, by omega, hr, hm, fun k h1 h2 => absurd h2 (by omega)⟩
        · rintro ⟨hij, -, hj, -, hp⟩
          rcases Nat.eq_or_lt_of_le hij with rfl | hlt
          · rw [hr] at hj; exact ⟨rfl, by simpa using hj⟩
          · obtain ⟨e', he', hne⟩ := hp i (Nat.le_refl _) hlt
            rw [hr] at he'
            obtain rfl : a = e' := by simpa using he'
            rw [hm] at hne; exact absurd hne (by simp)
      · simp only [hm]
        rw [if_neg (by simp), ih]
        constructor
        · rintro ⟨hij, hjf, hj, hje, hp⟩
          refine ⟨by omega, by omega, hj, hje, fun k h1 h2 => ?_⟩
          rcases Nat.eq_or_lt_of_le h1 with rfl | h1
          · exact ⟨a, hr, by simpa using hm⟩
          · exact hp k h1 h2
        · rintro ⟨hij, hjf, hj, hje, hp⟩
          rcases Nat.eq_or_lt_of_le hij with rfl | hlt
          · rw [hr] at hj
            obtain rfl : a = e := by simpa using hj
            exact absurd hje hm
          · exact ⟨hlt, by omega, hj, hje, fun k h1 h2 => hp k (by omega) h2⟩

theorem scanLoop_exhausted_iff (s : State) (fuel i k : Nat) :
    scanLoop s fuel i = .exhausted k ↔
      i ≤ k ∧ k ≤ i + fuel ∧ (k = i + fuel ∨ actRead s k = none) ∧ PassedOver s i k := by
  induction fuel generalizing i with
  | zero =>
    simp only [scanLoop, ScanResult.exhausted.injEq]
    constructor
    · rintro rfl
      exact ⟨Nat.le_refl _, Nat.le_refl _, .inl rfl, fun k h1 h2 => absurd h2 (by omega)⟩
    · rintro ⟨h1, h2, -, -⟩
      omega
  | succ fuel ih =>
    unfold scanLoop
    rcases hr : actRead s i with _ | a
    · simp only [ScanResult.exhausted.injEq]
      constructor
      · rintro rfl
        exact ⟨Nat.le_refl _, by omega, .inr hr, fun k h1 h2 => absurd h2 (by omega)⟩
      · rintro ⟨hik, -, -, hp⟩
        rcases Nat.eq_or_lt_of_le hik with rfl | hlt
        · rfl
        · obtain ⟨e', he', -⟩ := hp i (Nat.le_refl _) hlt
          rw [hr] at he'; exact absurd he' (by simp)
    · by_cases hm : matchesNow s a.word = true
      · simp only [hm, if_true, reduceCtorEq, false_iff]
        rintro ⟨hik, -, hk, hp⟩
        rcases Nat.eq_or_lt_of_le hik with rfl | hlt
        · rcases hk with hk | hk
          · omega
          · rw [hr] at hk; exact absurd hk (by simp)
        · obtain ⟨e', he', hne⟩ := hp i (Nat.le_refl _) hlt
          rw [hr] at he'
          obtain rfl : a = e' := by simpa using he'
          rw [hm] at hne; exact absurd hne (by simp)
      · simp only [hm]
        rw [if_neg (by simp), ih]
        constructor
        · rintro ⟨hik, hkf, hk, hp⟩
          refine ⟨by omega, by omega, hk.imp_left (by omega), fun n h1 h2 => ?_⟩
          rcases Nat.eq_or_lt_of_le h1 with rfl | h1
          · exact ⟨a, hr, by simpa using hm⟩
          · exact hp n h1 h2
        · rintro ⟨hik, hkf, hk, hp⟩
          rcases Nat.eq_or_lt_of_le hik with rfl | hlt
          · rcases hk with hk | hk
            · omega
            · rw [hr] at hk; exact absurd hk (by simp)
          · exact ⟨hlt, by omega, hk.imp_left (by omega), fun n h1 h2 => hp n (by omega) h2⟩

/-- The scan finds entry `e` at `j`: it is the first match at or after `scan_position`. -/
theorem scan_found_iff (s : State) (j : Nat) (e : ActiveEntry) :
    scan s = .found j e ↔
      s.scanPosition ≤ j ∧ j < s.capacity.val ∧ actRead s j = some e ∧ matchesNow s e.word = true ∧
        PassedOver s s.scanPosition j := by
  unfold scan
  rw [scanLoop_found_iff]
  constructor
  · rintro ⟨h1, h2, h⟩
    exact ⟨h1, by omega, h⟩
  · rintro ⟨h1, h2, h⟩
    exact ⟨h1, by omega, h⟩

/-- The scan is exhausted at `k`: the end of the table or its first empty slot, no match before. -/
theorem scan_exhausted_iff (s : State) (hs : s.scanPosition ≤ s.capacity.val) (k : Nat) :
    scan s = .exhausted k ↔
      s.scanPosition ≤ k ∧ k ≤ s.capacity.val ∧ (k = s.capacity.val ∨ actRead s k = none) ∧
        PassedOver s s.scanPosition k := by
  unfold scan
  rw [scanLoop_exhausted_iff]
  have : s.scanPosition + (s.capacity.val - s.scanPosition) = s.capacity.val := by omega
  rw [this]

/-! ### The whole of TICK -/

/-- A TICK that finds an entry. -/
theorem dispatchTick_found {s : State} {i : Nat} {e : ActiveEntry}
    (h : scan (fireStage s) = .found i e) :
    dispatchTick s =
      respond (.ok 0) (latchStage e (deadlineStage e { fireStage s with scanPosition := i + 1 })) := by
  unfold dispatchTick finishTick; rw [h]

/-- A TICK whose scan is exhausted. -/
theorem dispatchTick_exhausted {s : State} {k : Nat} (h : scan (fireStage s) = .exhausted k) :
    dispatchTick s = raiseFault Config.scanExhausted { fireStage s with scanPosition := k } := by
  unfold dispatchTick finishTick; rw [h]

/-- What one accepted TICK can do: the success or the fatal fault. -/
theorem dispatchTick_cases (s : State) :
    (∃ i e, scan (fireStage s) = .found i e ∧ dispatchTick s =
      respond (.ok 0) (latchStage e (deadlineStage e { fireStage s with scanPosition := i + 1 }))) ∨
    (∃ k, scan (fireStage s) = .exhausted k ∧ dispatchTick s =
      raiseFault Config.scanExhausted { fireStage s with scanPosition := k }) := by
  rcases h : scan (fireStage s) with ⟨i, e⟩ | k
  · exact .inl ⟨i, e, rfl, dispatchTick_found h⟩
  · exact .inr ⟨k, rfl, dispatchTick_exhausted h⟩

/-- What a TICK never writes (20_memory.md R56). -/
theorem dispatchTick_frame (s : State) :
    (dispatchTick s).active = s.active ∧ (dispatchTick s).staging = s.staging ∧
    (dispatchTick s).nextHandle = s.nextHandle ∧ (dispatchTick s).initialized = s.initialized ∧
    (dispatchTick s).tickMask = s.tickMask ∧ (dispatchTick s).capacity = s.capacity ∧
    (dispatchTick s).port = s.port := by
  rcases dispatchTick_cases s with ⟨i, e, -, h⟩ | ⟨k, -, h⟩ <;> rw [h] <;> simp

end Sys2Proof.Machine
end

