-- ==== Sys2Proof/Laws/Encoding.lean ====
section
/-! SUPPORT. The command word bit by bit: what the encoder packs, what the field accessors read, and what
the masks of the five formats ask (30_encoding.md R75, R77). -/

namespace Sys2Proof

/-- The bits of a packed word, field by field. -/
theorem getLsbD_packWord (op : BitVec 4) (k : BitVec 8) (a2 a1 a0 : Operand) (i : Nat) :
    (packWord op k a2 a1 a0).getLsbD i =
      if i < 16 then a0.getLsbD i else if i < 32 then a1.getLsbD (i - 16) else
      if i < 48 then a2.getLsbD (i - 32) else if i < 56 then k.getLsbD (i - 48) else
      if i < 60 then false else op.getLsbD (i - 60) := by
  unfold packWord
  simp only [BitVec.getLsbD_append, Nat.sub_sub]
  repeat' split
  all_goals first | rfl | omega | simp

section Fields

variable (op : BitVec 4) (k : BitVec 8) (a2 a1 a0 : Operand)

@[simp] theorem opField_packWord : opField (packWord op k a2 a1 a0) = op := by
  refine BitVec.eq_of_getLsbD_eq fun i hi => ?_
  rw [opField, BitVec.getLsbD_extractLsb', getLsbD_packWord]
  simp [hi, show ¬ 60 + i < 16 by omega, show ¬ 60 + i < 32 by omega, show ¬ 60 + i < 48 by omega,
    show ¬ 60 + i < 56 by omega]

@[simp] theorem rsvField_packWord : rsvField (packWord op k a2 a1 a0) = 0 := by
  refine BitVec.eq_of_getLsbD_eq fun i hi => ?_
  rw [rsvField, BitVec.getLsbD_extractLsb', getLsbD_packWord]
  simp [show ¬ 56 + i < 16 by omega, show ¬ 56 + i < 32 by omega, show ¬ 56 + i < 48 by omega,
    show ¬ 56 + i < 56 by omega, show 56 + i < 60 by omega]

@[simp] theorem kField_packWord : kField (packWord op k a2 a1 a0) = k := by
  refine BitVec.eq_of_getLsbD_eq fun i hi => ?_
  rw [kField, BitVec.getLsbD_extractLsb', getLsbD_packWord]
  simp [hi, show ¬ 48 + i < 16 by omega, show ¬ 48 + i < 32 by omega, show ¬ 48 + i < 48 by omega,
    show 48 + i < 56 by omega]

@[simp] theorem a2Field_packWord : a2Field (packWord op k a2 a1 a0) = a2 := by
  refine BitVec.eq_of_getLsbD_eq fun i hi => ?_
  rw [a2Field, BitVec.getLsbD_extractLsb', getLsbD_packWord]
  simp [hi, show ¬ 32 + i < 16 by omega, show ¬ 32 + i < 32 by omega, show 32 + i < 48 by omega]

@[simp] theorem a1Field_packWord : a1Field (packWord op k a2 a1 a0) = a1 := by
  refine BitVec.eq_of_getLsbD_eq fun i hi => ?_
  rw [a1Field, BitVec.getLsbD_extractLsb', getLsbD_packWord]
  simp [hi, show ¬ 16 + i < 16 by omega, show 16 + i < 32 by omega]

@[simp] theorem a0Field_packWord : a0Field (packWord op k a2 a1 a0) = a0 := by
  refine BitVec.eq_of_getLsbD_eq fun i hi => ?_
  rw [a0Field, BitVec.getLsbD_extractLsb', getLsbD_packWord]
  simp [hi]

end Fields

/-- The bits of `op << 60`. -/
theorem getLsbD_matchValue (op : BitVec 4) (i : Nat) :
    (matchValue op).getLsbD i = (decide (i < 64) && decide (60 ≤ i) && op.getLsbD (i - 60)) := by
  unfold matchValue
  rw [BitVec.getLsbD_shiftLeft, BitVec.getLsbD_setWidth]
  by_cases h : i < 64 <;> by_cases h' : 60 ≤ i
  · simp [h, h', show ¬ i < 60 by omega, show i - 60 < 64 by omega]
  · simp [h, h', show i < 60 by omega]
  · simp [h, h', show ¬ i < 60 by omega]
  · simp [h, h']

/-- Which bits below the opcode a format's mask asks to be zero (30_encoding.md R77). -/
def Format.asksZero : Format → Nat → Bool
  | .f0, _ => true
  | .fr, i => decide (56 ≤ i)
  | .fs, i => decide (56 ≤ i) || (decide (16 ≤ i) && decide (i < 48))
  | .fe, i => decide (32 ≤ i)
  | .fd, i => decide (16 ≤ i)

theorem getLsbD_mask (f : Format) (i : Nat) (h : i < 64) :
    f.mask.getLsbD i = (decide (60 ≤ i) || f.asksZero i) := by
  have : ∀ f ∈ [Format.f0, .fr, .fs, .fe, .fd], ∀ i < 64,
      f.mask.getLsbD i = (decide (60 ≤ i) || f.asksZero i) := by decide
  exact this f (by cases f <;> simp) i h

/-- `C & mask == match` says that the bits the format asks to be zero are zero. -/
theorem mask_eq_match_iff (f : Format) (c : CommandWord) :
    c &&& f.mask = matchValue (opField c) ↔
      ∀ i < 60, f.asksZero i = true → c.getLsbD i = false := by
  constructor
  · intro h i hi ha
    have := congrArg (fun x => BitVec.getLsbD x i) h
    simp only [BitVec.getLsbD_and, getLsbD_matchValue, getLsbD_mask f i (by omega), ha] at this
    simpa [show ¬ 60 ≤ i by omega] using this
  · intro h
    refine BitVec.eq_of_getLsbD_eq fun i hi => ?_
    rw [BitVec.getLsbD_and, getLsbD_matchValue, getLsbD_mask f i hi, opField,
      BitVec.getLsbD_extractLsb']
    by_cases h60 : 60 ≤ i
    · simp [h60, hi, show i - 60 < 4 by omega, show 60 + (i - 60) = i by omega]
    · cases ha : f.asksZero i
      · simp [h60]
      · simp [h60, h i (by omega) ha]

/-- A packed word passes a format's mask exactly when the fields the format does not use are zero. -/
theorem checkFormat_packWord (f : Format) (op : BitVec 4) (k : BitVec 8) (a2 a1 a0 : Operand)
    (i : Instr) (h : ∀ j < 60, f.asksZero j = true → (packWord op k a2 a1 a0).getLsbD j = false) :
    checkFormat f (packWord op k a2 a1 a0) i = .ok i := by
  unfold checkFormat
  rw [if_pos ((mask_eq_match_iff f _).2 h)]

/-- A word accepted for a format passes its mask, and the command is the one that was checked. -/
theorem checkFormat_ok {f : Format} {c : CommandWord} {i j : Instr} (h : checkFormat f c i = .ok j) :
    i = j ∧ ∀ n < 60, f.asksZero n = true → c.getLsbD n = false := by
  unfold checkFormat at h
  split at h
  next hm => exact ⟨by simpa using h, (mask_eq_match_iff f c).1 hm⟩
  next => split at h <;> exact absurd h (by simp)

end Sys2Proof
end

