-- ==== Sys2Proof/Laws/Sort.lean ====
section
/-! SUPPORT. What the sort of PUB does (43_registry_publish.md R167): a permutation, ascending in the time
slot, stable, and leaving what stands from the first empty slot on. -/

namespace Sys2Proof.Machine

open Sys2Proof

/-- The time slot of a staging entry, as a number. -/
def slotOf (e : StagingEntry) : Nat := (timeSlot e.word).toNat

/-- Ascending in the time slot. -/
def Ascending (l : List StagingEntry) : Prop := l.Pairwise (fun a b => slotOf a ≤ slotOf b)

theorem insertBySlot_perm (key : StagingEntry) (l : List StagingEntry) :
    (insertBySlot key l).Perm (key :: l) := by
  induction l with
  | nil => exact .refl _
  | cons e es ih =>
    unfold insertBySlot
    split
    · exact .refl _
    · exact (ih.cons e).trans (.swap _ _ _)

theorem insertBySlot_ascending (key : StagingEntry) {l : List StagingEntry} (h : Ascending l) :
    Ascending (insertBySlot key l) := by
  induction l with
  | nil => simp [insertBySlot, Ascending]
  | cons e es ih =>
    have h' := List.pairwise_cons.1 h
    unfold insertBySlot
    split
    next hlt =>
      refine List.pairwise_cons.2 ⟨fun b hb => ?_, h⟩
      rcases List.mem_cons.1 hb with rfl | hb
      · exact Nat.le_of_lt hlt
      · exact Nat.le_trans (Nat.le_of_lt hlt) (h'.1 b hb)
    next hlt =>
      refine List.pairwise_cons.2 ⟨fun b hb => ?_, ih h'.2⟩
      rcases List.mem_cons.1 ((insertBySlot_perm key es).mem_iff.1 hb) with rfl | hb
      · exact Nat.le_of_not_lt hlt
      · exact h'.1 b hb

/-- Insertion puts the key behind the entries of its own slot. -/
theorem insertBySlot_filter (key : StagingEntry) {l : List StagingEntry} (h : Ascending l)
    (slot : BitVec 7) :
    (insertBySlot key l).filter (fun e => timeSlot e.word = slot) =
      l.filter (fun e => timeSlot e.word = slot) ++
        [key].filter (fun e => timeSlot e.word = slot) := by
  induction l with
  | nil => rfl
  | cons e es ih =>
    have h' := List.pairwise_cons.1 h
    unfold insertBySlot
    split
    next hlt =>
      by_cases hk : timeSlot key.word = slot
      · have hnone : (e :: es).filter (fun e => timeSlot e.word = slot) = [] := by
          refine List.filter_eq_nil_iff.2 fun b hb => ?_
          have hle : slotOf e ≤ slotOf b := by
            rcases List.mem_cons.1 hb with rfl | hb
            · exact Nat.le_refl _
            · exact h'.1 b hb
          have : slotOf key < slotOf b := Nat.lt_of_lt_of_le hlt hle
          intro hc
          have hc : timeSlot b.word = slot := by simpa using hc
          unfold slotOf at this
          rw [hk, hc] at this
          omega
        rw [List.filter_cons, hnone]
        simp [hk]
      · simp [hk, List.filter_cons]
    next hlt =>
      rw [List.filter_cons, List.filter_cons, ih h'.2]
      split <;> simp

/-- An entry keeps at least as many entries before it when another is inserted. -/
theorem insertBySlot_split (key x : StagingEntry) (before after : List StagingEntry) :
    ∃ before' after', insertBySlot key (before ++ x :: after) = before' ++ x :: after' ∧
      before.length ≤ before'.length := by
  induction before with
  | nil =>
    simp only [List.nil_append, insertBySlot]
    split
    · exact ⟨[key], after, rfl, by simp⟩
    · exact ⟨[], insertBySlot key after, rfl, by simp⟩
  | cons e es ih =>
    simp only [List.cons_append, insertBySlot]
    split
    · exact ⟨key :: e :: es, after, rfl, by simp⟩
    · obtain ⟨b, a, h, hl⟩ := ih
      exact ⟨e :: b, a, by rw [h]; rfl, by simpa using hl⟩

/-- A key whose slot is not below any slot of the list goes to its end. -/
theorem insertBySlot_max (key : StagingEntry) (l : List StagingEntry)
    (h : ∀ e ∈ l, slotOf e ≤ slotOf key) : insertBySlot key l = l ++ [key] := by
  induction l with
  | nil => rfl
  | cons e es ih =>
    have he := h e (by simp)
    unfold slotOf at he
    simp only [insertBySlot]
    rw [if_neg (by omega), ih (fun a ha => h a (by simp [ha]))]
    rfl

theorem foldl_insert_facts (l acc : List StagingEntry) (hacc : Ascending acc) :
    let r := l.foldl (fun acc e => insertBySlot e acc) acc
    r.Perm (acc ++ l) ∧ Ascending r ∧ ∀ slot : BitVec 7,
      r.filter (fun e => timeSlot e.word = slot) = (acc ++ l).filter (fun e => timeSlot e.word = slot) := by
  induction l generalizing acc with
  | nil => exact ⟨by simp, hacc, fun _ => by simp⟩
  | cons e es ih =>
    obtain ⟨hp, ha, hf⟩ := ih (insertBySlot e acc) (insertBySlot_ascending e hacc)
    refine ⟨hp.trans ?_, ha, fun slot => ?_⟩
    · exact ((insertBySlot_perm e acc).append_right es).trans List.perm_middle.symm
    · rw [List.foldl_cons, hf slot, List.filter_append, insertBySlot_filter e hacc slot,
        List.append_assoc, ← List.filter_append, ← List.filter_append]
      rfl

theorem sortBySlot_perm (l : List StagingEntry) : (sortBySlot l).Perm l := by
  simpa [sortBySlot] using (foldl_insert_facts l [] .nil).1

theorem sortBySlot_ascending (l : List StagingEntry) : Ascending (sortBySlot l) :=
  (foldl_insert_facts l [] .nil).2.1

theorem sortBySlot_stable (l : List StagingEntry) (slot : BitVec 7) :
    (sortBySlot l).filter (fun e => timeSlot e.word = slot) =
      l.filter (fun e => timeSlot e.word = slot) := by
  simpa [sortBySlot] using (foldl_insert_facts l [] .nil).2.2 slot

@[simp] theorem sortBySlot_length (l : List StagingEntry) : (sortBySlot l).length = l.length :=
  (sortBySlot_perm l).length_eq

/-- An entry of the greatest slot is never moved forward by the sort. -/
theorem sortBySlot_split (x : StagingEntry) (hx : slotOf x = 127) (before after : List StagingEntry) :
    ∃ before' after', sortBySlot (before ++ x :: after) = before' ++ x :: after' ∧
      before.length ≤ before'.length := by
  have hmax : ∀ e ∈ sortBySlot before, slotOf e ≤ slotOf x := fun e _ => by
    have := (timeSlot e.word).isLt
    unfold slotOf at *
    omega
  have hrest : ∀ (l b a : List StagingEntry),
      ∃ b' a', l.foldl (fun acc e => insertBySlot e acc) (b ++ x :: a) = b' ++ x :: a' ∧
        b.length ≤ b'.length := by
    intro l
    induction l with
    | nil => exact fun b a => ⟨b, a, rfl, Nat.le_refl _⟩
    | cons e es ih =>
      intro b a
      obtain ⟨b₁, a₁, h₁, hl₁⟩ := insertBySlot_split e x b a
      obtain ⟨b₂, a₂, h₂, hl₂⟩ := ih b₁ a₁
      exact ⟨b₂, a₂, by rw [List.foldl_cons, h₁, h₂], Nat.le_trans hl₁ hl₂⟩
  obtain ⟨b, a, h, hl⟩ := hrest after (sortBySlot before) []
  refine ⟨b, a, ?_, by simpa using hl⟩
  rw [← h]
  unfold sortBySlot
  rw [List.foldl_append, List.foldl_cons]
  congr 1
  exact insertBySlot_max x _ hmax

/-- What the sort sees and leaves of a table whose valid entries stand before an empty slot or the end. -/
theorem takeWhile_isSome_append (es : List StagingEntry) (tail : List (Option StagingEntry))
    (h : tail = [] ∨ ∃ rest, tail = none :: rest) :
    stagedEntries (es.map some ++ tail) = es ∧
      (es.map some ++ tail).dropWhile Option.isSome = tail := by
  have ht : tail.takeWhile Option.isSome = [] ∧ tail.dropWhile Option.isSome = tail := by
    rcases h with rfl | ⟨rest, rfl⟩ <;> simp
  induction es with
  | nil => simp [stagedEntries, ht.1, ht.2]
  | cons e es ih =>
    refine ⟨?_, by simpa using ih.2⟩
    have := ih.1
    simp only [stagedEntries, List.map_cons, List.cons_append, List.takeWhile_cons,
      Option.isSome_some, if_true, List.filterMap_cons, id] at this ⊢
    rw [this]

/-- The sort of a table in the form above. -/
theorem sortStaging_staging_of (s : State) (es : List StagingEntry) (tail : List (Option StagingEntry))
    (hs : s.staging = es.map some ++ tail) (h : tail = [] ∨ ∃ rest, tail = none :: rest) :
    (sortStaging s).staging = (sortBySlot es).map some ++ tail := by
  have := takeWhile_isSome_append es tail h
  rw [sortStaging_staging, hs, this.1, this.2]

/-- Every table splits at its first empty slot. -/
theorem staging_split (l : List (Option StagingEntry)) :
    ∃ tail, l = (stagedEntries l).map some ++ tail ∧ (tail = [] ∨ ∃ rest, tail = none :: rest) := by
  induction l with
  | nil => exact ⟨[], by simp [stagedEntries], .inl rfl⟩
  | cons o l ih =>
    cases o with
    | none => exact ⟨none :: l, by simp [stagedEntries], .inr ⟨l, rfl⟩⟩
    | some e =>
      obtain ⟨tail, h, ht⟩ := ih
      refine ⟨tail, ?_, ht⟩
      have : stagedEntries (some e :: l) = e :: stagedEntries l := by simp [stagedEntries]
      rw [this, List.map_cons, List.cons_append, ← h]

theorem sortStaging_length (s : State) : (sortStaging s).staging.length = s.staging.length := by
  obtain ⟨tail, h, ht⟩ := staging_split s.staging
  rw [sortStaging_staging_of s _ tail h ht]
  conv => rhs; rw [h]
  simp

theorem sortStaging_keeps_wf {s : State} (h : Memory.wf s) : Memory.wf (sortStaging s) :=
  ⟨h.1, (sortStaging_length s).trans h.2⟩

end Sys2Proof.Machine
end

