-- ==== Sys2Proof/Laws/Registry.lean ====
section
/-! SUPPORT. What the mutator's operations do: first empty slot, lookup, one-word update, registration and
publish (43_registry_publish.md R160 to R167). -/

namespace Sys2Proof.Machine

open Sys2Proof

/-! ### Finding a slot -/

section Find

variable {α : Type}

theorem findIdx?_slot (p : Option α → Bool) (l : List (Option α)) (i : Nat) :
    l.findIdx? p = some i ↔
      i < l.length ∧ p (l.getD i none) = true ∧ ∀ j, j < i → p (l.getD j none) = false := by
  have key : ∀ (n : Nat) (h : n < l.length), l[n] = l.getD n none := fun n h => by
    simp [List.getD, h]
  rw [List.findIdx?_eq_some_iff_getElem]
  constructor
  · rintro ⟨h, hi, hj⟩
    exact ⟨h, by rw [← key]; exact hi, fun j hji => by
      rw [← key j (by omega)]; simpa using hj j hji⟩
  · rintro ⟨h, hi, hj⟩
    exact ⟨h, by rw [key]; exact hi, fun j hji => by
      rw [key j (by omega), hj j hji]; simp⟩

theorem findIdx?_slot_none (p : Option α → Bool) (l : List (Option α)) :
    l.findIdx? p = none ↔ ∀ i, i < l.length → p (l.getD i none) = false := by
  rw [List.findIdx?_eq_none_iff]
  constructor
  · intro h i hi
    have : l.getD i none = l[i] := by simp [List.getD, hi]
    rw [this]
    exact h _ (List.getElem_mem _)
  · intro h x hx
    obtain ⟨i, hi, rfl⟩ := List.getElem_of_mem hx
    have : l.getD i none = l[i] := by simp [List.getD, hi]
    rw [← this]
    exact h i hi

end Find

/-- The first empty slot (43_registry_publish.md R161). -/
theorem firstEmptySlot_eq_some_iff (s : State) (i : Nat) :
    firstEmptySlot s = some i ↔
      i < s.staging.length ∧ stgRead s i = none ∧ ∀ j, j < i → stgRead s j ≠ none := by
  unfold firstEmptySlot
  rw [findIdx?_slot]
  simp only [Option.isNone_iff_eq_none, Option.isNone_eq_false_iff, ← Option.ne_none_iff_isSome]
  rfl

theorem firstEmptySlot_eq_none_iff (s : State) :
    firstEmptySlot s = none ↔ ∀ i, i < s.staging.length → stgRead s i ≠ none := by
  unfold firstEmptySlot
  rw [findIdx?_slot_none]
  simp only [Option.isNone_eq_false_iff, ← Option.ne_none_iff_isSome]
  rfl

theorem carriesHandle_iff (h : TaskHandle) (slot : Option StagingEntry) :
    carriesHandle h slot = true ↔ ∃ e, slot = some e ∧ e.handle = h := by
  cases slot <;> simp [carriesHandle]

/-- Lookup gives the first slot that carries the handle (43_registry_publish.md R165). -/
theorem lookupHandle_eq_some_iff (s : State) (h : TaskHandle) (j : Nat) :
    lookupHandle s h = some j ↔
      (∃ e, stgRead s j = some e ∧ e.handle = h) ∧
        ∀ j' e', j' < j → stgRead s j' = some e' → e'.handle ≠ h := by
  unfold lookupHandle
  rw [findIdx?_slot]
  constructor
  · rintro ⟨-, hj, hlt⟩
    refine ⟨(carriesHandle_iff h _).1 hj, fun j' e' hj' he' hh => ?_⟩
    have : carriesHandle h (stgRead s j') = false := hlt j' hj'
    rw [(carriesHandle_iff h _).2 ⟨e', he', hh⟩] at this
    exact absurd this (by simp)
  · rintro ⟨⟨e, he, hh⟩, hlt⟩
    refine ⟨lt_length_of_stgRead he, (carriesHandle_iff h _).2 ⟨e, he, hh⟩, fun j' hj' => ?_⟩
    rw [← Bool.not_eq_true]
    intro hc
    obtain ⟨e', he', hh'⟩ := (carriesHandle_iff h _).1 hc
    exact hlt j' e' hj' he' hh'

theorem lookupHandle_eq_none_iff (s : State) (h : TaskHandle) :
    lookupHandle s h = none ↔ ∀ j e, stgRead s j = some e → e.handle ≠ h := by
  unfold lookupHandle
  rw [findIdx?_slot_none]
  constructor
  · intro hn j e he hh
    have : carriesHandle h (stgRead s j) = false := hn j (lt_length_of_stgRead he)
    rw [(carriesHandle_iff h _).2 ⟨e, he, hh⟩] at this
    exact absurd this (by simp)
  · intro hn j _
    rw [← Bool.not_eq_true]
    intro hc
    obtain ⟨e, he, hh⟩ := (carriesHandle_iff h _).1 hc
    exact hn j e he hh

/-! ### One operation at a time -/

/-- The registered word, whatever the operands (40_codec.md R109). -/
theorem registerWord_eq (t f p : Operand) :
    registerWord t f p =
      (t &&& 0x7F#16) ||| ((f &&& 0x1F#16) <<< 7) ||| ((p &&& 0xF#16) <<< 12) := by
  refine BitVec.eq_of_getLsbD_eq fun i hi => ?_
  rw [registerWord, getLsbD_encPeriod _ _ _ hi, getLsbD_encFrame _ _ _ hi, getLsbD_encTime _ _ _ hi]
  simp only [BitVec.getLsbD_or, BitVec.getLsbD_and, BitVec.getLsbD_shiftLeft, getLsbD_low7 i hi]
  rcases (by omega : i < 7 ∨ (7 ≤ i ∧ i < 12) ∨ 12 ≤ i) with h | h | h
  · simp [h, show i < 12 by omega, hi]
  · simp [show ¬ i < 7 by omega, show i < 12 by omega, show ¬ 12 ≤ i by omega, hi,
      getLsbD_low5 (i - 7) (by omega), show i - 7 < 5 by omega]
  · simp [show ¬ i < 7 by omega, show ¬ i < 12 by omega, hi, h,
      getLsbD_low5 (i - 7) (by omega), show ¬ i - 7 < 5 by omega,
      getLsbD_low4 (i - 12) (by omega), show i - 12 < 4 by omega]

/-- The frame-advance task's entry (43_registry_publish.md R160). -/
theorem frameAdvanceEntry_eq : frameAdvanceEntry = ⟨0, 0xFFFF, 0⟩ := by decide

/-- What an accepted REG can do. -/
theorem register_cases (t f p : Operand) (cb : CallbackId) (s : State) :
    (firstEmptySlot s = none ∧ register t f p cb s = respond .none s) ∨
    (∃ i, firstEmptySlot s = some i ∧ register t f p cb s =
      respond (.ok (handleValue s.nextHandle))
        { stgWrite i ⟨s.nextHandle, registerWord t f p, cb⟩ s with
          nextHandle := s.nextHandle + 1 }) := by
  unfold register
  rcases firstEmptySlot s with _ | i
  · exact .inl ⟨rfl, rfl⟩
  · exact .inr ⟨i, rfl, rfl⟩

/-- What an accepted setter can do: refuse an unknown handle, or re-encode the one word. -/
theorem setField_cases (enc : ScheduleWord → Operand → ScheduleWord) (h : TaskHandle) (v : Operand)
    (s : State) :
    (lookupHandle s h = none ∧ setField enc h v s = refuse .badHandle s) ∨
    (∃ j e, lookupHandle s h = some j ∧ stgRead s j = some e ∧ e.handle = h ∧
      setField enc h v s = respond (.ok 0) (stgWrite j { e with word := enc e.word v } s)) := by
  unfold setField
  rcases hl : lookupHandle s h with _ | j
  · exact .inl ⟨rfl, rfl⟩
  · obtain ⟨⟨e, he, hh⟩, -⟩ := (lookupHandle_eq_some_iff s h j).1 hl
    refine .inr ⟨j, e, rfl, he, hh, ?_⟩
    simp only [setEntryWord, he]

/-- An accepted PUB, field by field. -/
theorem publish_eq (s : State) :
    publish s = { s with
      staging := (sortStaging s).staging
      active := (sortStaging s).staging.map (Option.map dropHandle)
      tickMask := false
      trace := s.trace ++ [.maskTick, .unmaskTick, .response (.ok 0)] } := by
  simp [publish, respond, unmaskTick, actCopy, maskTick, emit, sortStaging]

/-- An accepted INIT, field by field. -/
theorem initTables_eq (s : State) :
    initTables s = { s with
      staging := (List.replicate s.capacity.val none).set 0 (some frameAdvanceEntry)
      active := List.replicate s.capacity.val none
      nextHandle := 1
      initialized := true
      trace := s.trace ++ [.response (.ok 0)] } := rfl

end Sys2Proof.Machine
end

