-- ==== Sys2Proof/Laws/Exec.lean ====
section
/-! SUPPORT. What one command and one step can do, said once (30_encoding.md R76, 60_exceptions.md R194). -/

namespace Sys2Proof.Machine

open Sys2Proof

/-! ### The checks -/

theorem unlessHalted_halted (k : State → State) {s : State} (h : s.fault = true) :
    unlessHalted k s = refuse .halted s := by
  simp [unlessHalted, h]

theorem unlessHalted_running (k : State → State) {s : State} (h : s.fault = false) :
    unlessHalted k s = k s := by
  simp [unlessHalted, h]

theorem afterInit_started (k : State → State) {s : State} (h : s.initialized = true) :
    afterInit k s = k s := by
  simp [afterInit, h]

theorem afterInit_unstarted (k : State → State) {s : State} (h : s.initialized = false) :
    afterInit k s = refuse .badSequence s := by
  simp [afterInit, h]

theorem beforeInit_started (k : State → State) {s : State} (h : s.initialized = true) :
    beforeInit k s = refuse .badSequence s := by
  simp [beforeInit, h]

theorem beforeInit_unstarted (k : State → State) {s : State} (h : s.initialized = false) :
    beforeInit k s = k s := by
  simp [beforeInit, h]

/-- The setters' shape, for the three of them at once. -/
def setterEnc : Instr → Option ((ScheduleWord → Operand → ScheduleWord) × TaskHandle × Operand)
  | .sett h v => some (encTime, h, v)
  | .setf h v => some (encFrame, h, v)
  | .setp h v => some (encPeriod, h, v)
  | .init => none
  | .reg _ _ _ _ => none
  | .pub => none
  | .tick => none
  | .enct _ _ => none
  | .encf _ _ => none
  | .encp _ _ => none
  | .dect _ => none
  | .decf _ => none
  | .decp _ => none

/-- What one command can do. -/
inductive Effect (i : Instr) (s : State) : State → Prop where
  | refused (reason : RefusalReason)
      (why : reason = .halted ∧ s.fault = true ∨
        reason = .badSequence ∧ s.fault = false ∧ i.isCodec = false ∧ i ≠ .tick ∨
        reason = .badHandle ∧ s.fault = false ∧ s.initialized = true ∧
          ∃ enc h v, setterEnc i = some (enc, h, v) ∧ lookupHandle s h = none) :
      Effect i s (refuse reason s)
  | answered (r : BitVec 16) (running : s.fault = false) (codec : i.isCodec = true) :
      Effect i s (respond (.ok r) s)
  | started (running : s.fault = false) (first : s.initialized = false) (is : i = .init) :
      Effect i s (initTables s)
  | dropped (running : s.fault = false) (ready : s.initialized = true)
      (is : ∃ t f p cb, i = .reg t f p cb) (full : firstEmptySlot s = none) :
      Effect i s (respond .none s)
  | registered (t f p : Operand) (cb : CallbackId) (j : Nat) (running : s.fault = false)
      (ready : s.initialized = true) (is : i = .reg t f p cb) (free : firstEmptySlot s = some j) :
      Effect i s (respond (.ok (handleValue s.nextHandle))
        { stgWrite j ⟨s.nextHandle, registerWord t f p, cb⟩ s with nextHandle := s.nextHandle + 1 })
  | updated (enc : ScheduleWord → Operand → ScheduleWord) (h : TaskHandle) (v : Operand) (j : Nat)
      (e : StagingEntry) (running : s.fault = false) (ready : s.initialized = true)
      (is : setterEnc i = some (enc, h, v)) (found : lookupHandle s h = some j)
      (held : stgRead s j = some e) (carries : e.handle = h) :
      Effect i s (respond (.ok 0) (stgWrite j { e with word := enc e.word v } s))
  | published (running : s.fault = false) (ready : s.initialized = true) (is : i = .pub) :
      Effect i s (publish s)
  | ticked (running : s.fault = false) (is : i = .tick) : Effect i s (dispatchTick s)

/-- The setters' effect, once they are past the halted check. -/
theorem setter_effect {i : Instr} {enc : ScheduleWord → Operand → ScheduleWord} {h : TaskHandle}
    {v : Operand} (hi : setterEnc i = some (enc, h, v)) (hc : i.isCodec = false) (ht : i ≠ .tick)
    (s : State) : Effect i s (unlessHalted (afterInit (setField enc h v)) s) := by
  rcases hf : s.fault with _ | _
  · rw [unlessHalted_running _ hf]
    rcases hn : s.initialized with _ | _
    · rw [afterInit_unstarted _ hn]
      exact .refused _ (.inr (.inl ⟨rfl, hf, hc, ht⟩))
    · rw [afterInit_started _ hn]
      rcases setField_cases enc h v s with ⟨hl, he⟩ | ⟨j, e, hl, hr, hh, he⟩
      · rw [he]
        exact .refused _ (.inr (.inr ⟨rfl, hf, hn, enc, h, v, hi, hl⟩))
      · rw [he]
        exact .updated enc h v j e hf hn hi hl hr hh
  · rw [unlessHalted_halted _ hf]
    exact .refused _ (.inl ⟨rfl, hf⟩)

theorem answer_effect {i : Instr} (hc : i.isCodec = true) (r : BitVec 16) (s : State) :
    Effect i s (answer r s) := by
  unfold answer
  rcases hf : s.fault with _ | _
  · rw [unlessHalted_running _ hf]
    exact .answered r hf hc
  · rw [unlessHalted_halted _ hf]
    exact .refused _ (.inl ⟨rfl, hf⟩)

/-- Every command has a next state, and it is one of the effects above. -/
theorem exec_effect (i : Instr) (s : State) : ∃ t, exec i s = .next t ∧ Effect i s t := by
  cases i with
  | init =>
    refine ⟨_, rfl, ?_⟩
    rcases hf : s.fault with _ | _
    · rw [unlessHalted_running _ hf]
      rcases hn : s.initialized with _ | _
      · rw [beforeInit_unstarted _ hn]
        exact .started hf hn rfl
      · rw [beforeInit_started _ hn]
        exact .refused _ (.inr (.inl ⟨rfl, hf, rfl, by simp⟩))
    · rw [unlessHalted_halted _ hf]
      exact .refused _ (.inl ⟨rfl, hf⟩)
  | reg t f p cb =>
    refine ⟨_, rfl, ?_⟩
    rcases hf : s.fault with _ | _
    · rw [unlessHalted_running _ hf]
      rcases hn : s.initialized with _ | _
      · rw [afterInit_unstarted _ hn]
        exact .refused _ (.inr (.inl ⟨rfl, hf, rfl, by simp⟩))
      · rw [afterInit_started _ hn]
        rcases register_cases t f p cb s with ⟨he, h⟩ | ⟨j, he, h⟩ <;> rw [h]
        · exact .dropped hf hn ⟨t, f, p, cb, rfl⟩ he
        · exact .registered t f p cb j hf hn rfl he
    · rw [unlessHalted_halted _ hf]
      exact .refused _ (.inl ⟨rfl, hf⟩)
  | sett h v => exact ⟨_, rfl, setter_effect rfl rfl (by simp) s⟩
  | setf h v => exact ⟨_, rfl, setter_effect rfl rfl (by simp) s⟩
  | setp h v => exact ⟨_, rfl, setter_effect rfl rfl (by simp) s⟩
  | pub =>
    refine ⟨_, rfl, ?_⟩
    rcases hf : s.fault with _ | _
    · rw [unlessHalted_running _ hf]
      rcases hn : s.initialized with _ | _
      · rw [afterInit_unstarted _ hn]
        exact .refused _ (.inr (.inl ⟨rfl, hf, rfl, by simp⟩))
      · rw [afterInit_started _ hn]
        exact .published hf hn rfl
    · rw [unlessHalted_halted _ hf]
      exact .refused _ (.inl ⟨rfl, hf⟩)
  | tick =>
    refine ⟨_, rfl, ?_⟩
    rcases hf : s.fault with _ | _
    · rw [unlessHalted_running _ hf]
      exact .ticked hf rfl
    · rw [unlessHalted_halted _ hf]
      exact .refused _ (.inl ⟨rfl, hf⟩)
  | enct w v => exact ⟨_, rfl, answer_effect rfl _ s⟩
  | encf w v => exact ⟨_, rfl, answer_effect rfl _ s⟩
  | encp w v => exact ⟨_, rfl, answer_effect rfl _ s⟩
  | dect w => exact ⟨_, rfl, answer_effect rfl _ s⟩
  | decf w => exact ⟨_, rfl, answer_effect rfl _ s⟩
  | decp w => exact ⟨_, rfl, answer_effect rfl _ s⟩

/-- The inversion lemma of exec. -/
theorem effect_of_exec {i : Instr} {s t : State} (h : exec i s = .next t) : Effect i s t := by
  obtain ⟨t', h', he⟩ := exec_effect i s
  rw [h'] at h
  obtain rfl : t' = t := by simpa using h
  exact he

/-- What one step can do, by what is presented next on the port. -/
theorem step_cases {s t : State} (h : step s = .next t) :
    (s.port = [] ∧ t = s) ∨
    (∃ rest, s.port = .rst :: rest ∧ t = { State.resetOf s.capacity with port := rest }) ∨
    (∃ c rest err, s.port = .command c :: rest ∧ decode c = .error err ∧
      t = refuseIllegal { s with port := rest }) ∨
    (∃ c rest i, s.port = .command c :: rest ∧ decode c = .ok i ∧
      Effect i { s with port := rest } t) := by
  unfold step at h
  split at h
  next hp => exact .inl ⟨hp, by simpa using h.symm⟩
  next input rest hp =>
    cases input with
    | rst => exact .inr (.inl ⟨rest, hp, by simpa [takeInput, hardReset] using h.symm⟩)
    | command c =>
      simp only [takeInput, perform] at h
      split at h
      next i hd => exact .inr (.inr (.inr ⟨c, rest, i, hp, hd, effect_of_exec h⟩))
      next err hd => exact .inr (.inr (.inl ⟨c, rest, err, hp, hd, by simpa using h.symm⟩))

end Sys2Proof.Machine
end

