-- ==== Sys2Proof/Laws/Invariant.lean ====
section
/-! SUPPORT. What the invariants of Safety.lean rest on: the packed staging table as a list of entries
(20_memory.md R54), what PUB does to the frame-advance task (R55 (c), 42_dispatcher.md R141), and how far
a TICK looks (20_memory.md R56). -/

namespace Sys2Proof.Machine

open Sys2Proof

/-! ### The packed staging table as a list of entries -/

section Packed

variable (es : List StagingEntry) (n : Nat)

theorem filterMap_id_packed :
    (es.map some ++ List.replicate n none).filterMap id = es := by
  simp [List.filterMap_append]

theorem set_packed {j : Nat} (x : StagingEntry) (h : j < es.length) :
    (es.map some ++ List.replicate n none).set j (some x) =
      (es.set j x).map some ++ List.replicate n none := by
  rw [List.set_append_left _ _ (by simpa using h), List.map_set]

theorem set_packed_next (x : StagingEntry) :
    (es.map some ++ List.replicate (n + 1) none).set es.length (some x) =
      (es ++ [x]).map some ++ List.replicate n none := by
  rw [List.set_append_right _ _ (by simp)]
  simp [List.replicate_succ]

end Packed

theorem stagedHandles_packed {s : State} {es : List StagingEntry} {n : Nat}
    (h : s.staging = es.map some ++ List.replicate n none) :
    stagedHandles s = es.map (fun e => e.handle.toNat) := by
  rw [stagedHandles, h, filterMap_id_packed]

theorem stgRead_packed {s : State} {es : List StagingEntry} {n : Nat}
    (h : s.staging = es.map some ++ List.replicate n none) (j : Nat) : stgRead s j = es[j]? := by
  unfold stgRead
  rw [h]
  simp only [List.getD]
  by_cases hj : j < es.length
  · rw [List.getElem?_append_left (by simpa using hj)]
    simp [hj]
  · rw [List.getElem?_append_right (by simp; omega)]
    simp only [List.getElem?_replicate]
    split <;> simp [hj]

/-! ### The invariant of the whole state says nothing of the port and the responses -/

theorem StateInv.withPort {s : State} (h : StateInv s) (p : List PortInput) :
    StateInv { s with port := p } := by
  obtain ⟨h1, h2, h3, h4, h5, h6, h7, h8, h9, h10, h11, h12, h13⟩ := h
  exact ⟨h1, h2, h3, h4, h5, h6, h7, h8, h9, h10, h11, h12, h13⟩

theorem StateInv.respond {s : State} (h : StateInv s) (r : Response) :
    StateInv (Machine.respond r s) := by
  obtain ⟨h1, h2, h3, h4, h5, h6, h7, h8, h9, h10, h11, h12, h13⟩ := h
  exact ⟨h1, h2, h3, h4, h5, h6, h7, h8, h9, h10, h11, h12,
    by simp [h13, Machine.respond, emit, deadlineStrobe]⟩

/-! ### The sentinel -/

/-- The frame-advance task matches in every frame and period (42_dispatcher.md R141). -/
theorem matchesNow_allOnes (s : State) : matchesNow s 0xFFFF = true := by
  have hf := s.currentFrame.isLt
  have hp := s.currentPeriod.isLt
  change ((BitVec.allOnes 16).getLsbD _ && (BitVec.allOnes 16).getLsbD _) = true
  simp only [BitVec.getLsbD_allOnes, Bool.and_eq_true, decide_eq_true_eq]
  omega

/-- A staged entry with no hole before it is one of the entries the sort sees. -/
theorem stagedEntries_split {s : State} {j : Nat} {x : StagingEntry} (h : stgRead s j = some x)
    (hb : ∀ i, i < j → (stgRead s i).isSome = true) :
    ∃ before after, stagedEntries s.staging = before ++ x :: after ∧ before.length = j := by
  obtain ⟨tail, hs, ht⟩ := staging_split s.staging
  generalize stagedEntries s.staging = es at hs ⊢
  have read : ∀ i, stgRead s i = (es.map some ++ tail).getD i none := fun i => by
    unfold stgRead; rw [← hs]
  have hj : j < es.length := by
    by_contra hc
    have hend : stgRead s es.length = none := by
      rw [read]
      simp only [List.getD]
      rw [List.getElem?_append_right (by simp)]
      rcases ht with rfl | ⟨rest, rfl⟩ <;> simp
    rcases Nat.lt_or_eq_of_le (Nat.le_of_not_lt hc) with hlt | heq
    · exact absurd (hb _ hlt) (by simp [hend])
    · rw [heq, h] at hend
      exact absurd hend (by simp)
  have hx : es[j] = x := by
    rw [read] at h
    simp only [List.getD] at h
    rw [List.getElem?_append_left (by simpa using hj)] at h
    simpa [hj] using h
  refine ⟨es.take j, es.drop (j + 1), ?_, by simp; omega⟩
  rw [← hx, ← List.drop_eq_getElem_cons hj, List.take_append_drop]

theorem stgRead_publish (s : State) (i : Nat) : stgRead (publish s) i = stgRead (sortStaging s) i := by
  rw [publish_eq]; rfl

theorem actRead_publish (s : State) (i : Nat) :
    actRead (publish s) i = (stgRead (sortStaging s) i).map dropHandle := by
  rw [publish_eq]; exact getD_map_option _ _ _

/-- PUB moves the frame-advance task, standing at `j` with no hole before it, backward or not at all,
and its copy in the active table stands at the same index, no hole before it. -/
theorem publish_frameAdvance {s : State} {j : Nat} (hw : Memory.wf s)
    (h : stgRead s j = some ⟨Config.faHandle, 0xFFFF, Config.cbFadv⟩)
    (hb : ∀ i, i < j → (stgRead s i).isSome = true) :
    ∃ k, j ≤ k ∧ k < s.capacity.val ∧
      actRead (publish s) k = some ⟨0xFFFF, Config.cbFadv⟩ ∧
      (∀ i, i < k → (actRead (publish s) i).isSome = true) ∧
      stgRead (publish s) k = some ⟨Config.faHandle, 0xFFFF, Config.cbFadv⟩ ∧
      ∀ i, i < k → (stgRead (publish s) i).isSome = true := by
  obtain ⟨before, after, he, rfl⟩ := stagedEntries_split h hb
  obtain ⟨b, a, hsort, hle⟩ :=
    sortBySlot_split ⟨Config.faHandle, 0xFFFF, Config.cbFadv⟩ (by decide) before after
  have hst : (sortStaging s).staging =
      (b ++ (⟨Config.faHandle, 0xFFFF, Config.cbFadv⟩ : StagingEntry) :: a).map some ++
        s.staging.dropWhile Option.isSome := by
    rw [sortStaging_staging, he, hsort]
  have hk : stgRead (sortStaging s) b.length = some ⟨Config.faHandle, 0xFFFF, Config.cbFadv⟩ := by
    unfold stgRead
    rw [hst]
    simp [List.getD]
  have hbefore : ∀ i, i < b.length → (stgRead (sortStaging s) i).isSome = true := by
    intro i hi
    unfold stgRead
    rw [hst]
    simp [List.getD, hi, List.getElem?_append_left]
  refine ⟨b.length, hle, ?_, ?_, fun i hi => ?_, ?_, fun i hi => ?_⟩
  · have := lt_length_of_stgRead hk
    rwa [sortStaging_length, hw.2] at this
  · rw [actRead_publish, hk]; rfl
  · rw [actRead_publish]; simpa using hbefore i hi
  · rw [stgRead_publish]; exact hk
  · rw [stgRead_publish]; exact hbefore i hi

/-! ### How far a TICK looks -/

/-- The scan reads the active table, the frame/period pair, the start index and the capacity, and nothing
of the mutator's half. -/
theorem scan_withStaging (s : State) (st : List (Option StagingEntry)) (nh : TaskHandle)
    (tr : List Event) : scan { s with staging := st, nextHandle := nh, trace := tr } = scan s := by
  have key : ∀ fuel i,
      scanLoop { s with staging := st, nextHandle := nh, trace := tr } fuel i = scanLoop s fuel i := by
    intro fuel
    induction fuel with
    | zero => exact fun _ => rfl
    | succ fuel ih =>
      intro i
      have hr : actRead { s with staging := st, nextHandle := nh, trace := tr } i = actRead s i := rfl
      have hm : ∀ w, matchesNow { s with staging := st, nextHandle := nh, trace := tr } w =
          matchesNow s w := fun _ => rfl
      rw [scanLoop, scanLoop, hr]
      simp only [hm, ih]
  exact key _ _

/-- A TICK adds the same events to the trace whatever the staging table, the next handle and the trace
are, and leaves the first two as they are (20_memory.md R56, R60). -/
theorem dispatchTick_withStaging (s : State) :
    ∃ evs, (dispatchTick s).trace = s.trace ++ evs ∧ ∀ st nh tr,
      dispatchTick { s with staging := st, nextHandle := nh, trace := tr } =
        { dispatchTick s with staging := st, nextHandle := nh, trace := tr ++ evs } := by
  have hfire : ∀ st nh tr, fireStage { s with staging := st, nextHandle := nh, trace := tr } =
      { fireStage s with
        staging := st
        nextHandle := nh
        trace := tr ++ (s.latchedTask.map Event.fire).toList } := by
    intro st nh tr
    generalize he : (s.latchedTask.map Event.fire).toList = evs
    rcases fireStage_cases s with ⟨hl, h⟩ | ⟨hl, h⟩ | ⟨cb, hcb, hl, h⟩ <;> rw [hl] at he <;> subst he
    · rw [h, fireStage_none (by exact hl)]
      simp
    · rw [h, fireStage_fadv (by exact hl)]
      rfl
    · rw [h, fireStage_some (by exact hl) hcb]
      rfl
  rcases hs : scan (fireStage s) with ⟨i, e⟩ | k
  · refine ⟨(s.latchedTask.map Event.fire).toList ++ [.writeDeadline
      (deadlineValue (doubledSlot e.word) (fireStage s).elapsedFrameTime), .response (.ok 0)], ?_,
      fun st nh tr => ?_⟩
    · rw [dispatchTick_found hs]
      simp [deadlineStage, writeDeadline, fireStage_trace]
    · unfold dispatchTick
      rw [hfire, scan_withStaging, hs]
      simp [finishTick, respond, emit, latchStage, deadlineStage, writeDeadline]
  · refine ⟨(s.latchedTask.map Event.fire).toList ++ [.fault Config.scanExhausted,
      .response (.fault Config.scanExhausted)], ?_, fun st nh tr => ?_⟩
    · rw [dispatchTick_exhausted hs]
      simp [fireStage_trace]
    · unfold dispatchTick
      rw [hfire, scan_withStaging, hs]
      simp [finishTick, raiseFault, respond, emit]

end Sys2Proof.Machine
end

