-- ==== Sys2Proof/Laws/PerInstr.lean ====
section
/-! SUPPORT. What is proved of every instruction, one lemma per constructor: its word is legal by the
field table (30_encoding.md R75, R79), which is spelled independently of the encoder. -/

namespace Sys2Proof.Laws.EncodeLegal

open Sys2Proof

/-- The word of the instruction is a legal command word. -/
def Statement (i : Instr) : Prop := CommandWord.wellFormed (encode i) = true

/-- A packed word, as a number. -/
theorem toNat_packWord (op : BitVec 4) (k : BitVec 8) (a2 a1 a0 : Operand) :
    (packWord op k a2 a1 a0).toNat =
      op.toNat * 2 ^ 60 + k.toNat * 2 ^ 48 + a2.toNat * 2 ^ 32 + a1.toNat * 2 ^ 16 + a0.toNat := by
  have h3 := k.isLt
  have h2 := a2.isLt
  have h1 := a1.isLt
  have h0 := a0.isLt
  simp only [packWord, BitVec.toNat_append]
  rw [← Nat.shiftLeft_add_eq_or_of_lt (by decide : (0#4).toNat < 2 ^ 4),
    ← Nat.shiftLeft_add_eq_or_of_lt h3, ← Nat.shiftLeft_add_eq_or_of_lt h2,
    ← Nat.shiftLeft_add_eq_or_of_lt h1, ← Nat.shiftLeft_add_eq_or_of_lt h0]
  simp only [Nat.shiftLeft_eq, BitVec.toNat_ofNat]
  omega

/-- The word checks, on the fields of a packed word. -/
theorem wellFormed_packWord (op : BitVec 4) (k : BitVec 8) (a2 a1 a0 : Operand)
    (hop : 1 ≤ op.toNat ∧ op.toNat ≤ 13)
    (hk : 2 ≤ op.toNat ∧ op.toNat ≤ 5 ∨ k = 0)
    (h2 : op.toNat = 2 ∨ a2 = 0)
    (h1 : op.toNat = 2 ∨ 8 ≤ op.toNat ∧ op.toNat ≤ 10 ∨ a1 = 0)
    (h0 : ¬ (op.toNat = 1 ∨ op.toNat = 6 ∨ op.toNat = 7) ∨ a0 = 0) :
    CommandWord.wellFormed (packWord op k a2 a1 a0) = true := by
  have b3 := k.isLt
  have b2 := a2.isLt
  have b1 := a1.isLt
  have b0 := a0.isLt
  have e := toNat_packWord op k a2 a1 a0
  have zk : k = 0 → k.toNat = 0 := fun h => by rw [h]; rfl
  have z2 : a2 = 0 → a2.toNat = 0 := fun h => by rw [h]; rfl
  have z1 : a1 = 0 → a1.toNat = 0 := fun h => by rw [h]; rfl
  have z0 : a0 = 0 → a0.toNat = 0 := fun h => by rw [h]; rfl
  have eop : CommandWord.opNumber (packWord op k a2 a1 a0) = op.toNat := by
    unfold CommandWord.opNumber; rw [e]; omega
  simp only [CommandWord.wellFormed, CommandWord.opAssigned, CommandWord.rsvZero,
    CommandWord.kZeroUnlessUsed, CommandWord.a2ZeroUnlessUsed, CommandWord.a1ZeroUnlessUsed,
    CommandWord.a0ZeroUnlessUsed, eop, e, Bool.and_eq_true, Bool.or_eq_true, Bool.not_eq_true',
    decide_eq_true_eq, decide_eq_false_iff_not]
  refine ⟨⟨⟨⟨⟨hop, by omega⟩, hk.imp_right fun h => ?_⟩, h2.imp_right fun h => ?_⟩, ?_⟩,
    h0.imp_right fun h => ?_⟩
  · have := zk h; omega
  · have := z2 h; omega
  · rcases h1 with h | h | h
    · exact .inl (.inl h)
    · exact .inl (.inr h)
    · have := z1 h
      exact .inr (by omega)
  · have := z0 h; omega

theorem init : Statement .init :=
  wellFormed_packWord _ _ _ _ _ (by decide) (by decide) (by decide) (by decide) (by decide)

theorem reg (t f p : Operand) (cb : CallbackId) : Statement (.reg t f p cb) :=
  wellFormed_packWord _ _ _ _ _ (by decide) (.inl (by decide)) (.inl (by decide)) (.inl (by decide))
    (.inl (by decide))

theorem sett (h : TaskHandle) (v : Operand) : Statement (.sett h v) :=
  wellFormed_packWord _ _ _ _ _ (by decide) (.inl (by decide)) (by decide) (by decide)
    (.inl (by decide))

theorem setf (h : TaskHandle) (v : Operand) : Statement (.setf h v) :=
  wellFormed_packWord _ _ _ _ _ (by decide) (.inl (by decide)) (by decide) (by decide)
    (.inl (by decide))

theorem setp (h : TaskHandle) (v : Operand) : Statement (.setp h v) :=
  wellFormed_packWord _ _ _ _ _ (by decide) (.inl (by decide)) (by decide) (by decide)
    (.inl (by decide))

theorem pub : Statement .pub :=
  wellFormed_packWord _ _ _ _ _ (by decide) (by decide) (by decide) (by decide) (by decide)

theorem tick : Statement .tick :=
  wellFormed_packWord _ _ _ _ _ (by decide) (by decide) (by decide) (by decide) (by decide)

theorem enct (w : ScheduleWord) (v : Operand) : Statement (.enct w v) :=
  wellFormed_packWord _ _ _ _ _ (by decide) (by decide) (by decide) (.inr (.inl (by decide)))
    (.inl (by decide))

theorem encf (w : ScheduleWord) (v : Operand) : Statement (.encf w v) :=
  wellFormed_packWord _ _ _ _ _ (by decide) (by decide) (by decide) (.inr (.inl (by decide)))
    (.inl (by decide))

theorem encp (w : ScheduleWord) (v : Operand) : Statement (.encp w v) :=
  wellFormed_packWord _ _ _ _ _ (by decide) (by decide) (by decide) (.inr (.inl (by decide)))
    (.inl (by decide))

theorem dect (w : ScheduleWord) : Statement (.dect w) :=
  wellFormed_packWord _ _ _ _ _ (by decide) (by decide) (by decide) (by decide) (.inl (by decide))

theorem decf (w : ScheduleWord) : Statement (.decf w) :=
  wellFormed_packWord _ _ _ _ _ (by decide) (by decide) (by decide) (by decide) (.inl (by decide))

theorem decp (w : ScheduleWord) : Statement (.decp w) :=
  wellFormed_packWord _ _ _ _ _ (by decide) (by decide) (by decide) (by decide) (.inl (by decide))

end Sys2Proof.Laws.EncodeLegal
end

