-- ==== Sys2Proof/Tests/Slice0.lean ====
section
/-! SUPPORT. The model's own tests: the smoke test of the word checks, decoding of words written out from
30_encoding.md R75 to R77, at most two single steps per command with the values of 95_test_vectors.md
sections 2.2 to 2.5 (worked there from the rules by hand), and for every statement with hypotheses a
concrete state and operands that meet them. -/

namespace Sys2Proof.Tests

open Sys2Proof Sys2Proof.Machine

/-! ## Helpers -/

/-- The state an outcome gives, if it gives one. -/
def outState (o : Host.Outcome State Fault Refusal) : Option State :=
  match o with
  | .next s => some s
  | .fault _ => none
  | .refused _ => none

/-- The state after a command. -/
def after (i : Instr) (s : State) : State := (outState (exec i s)).getD s

/-- Entries in front, empty slots behind. -/
def padded {α : Type} (n : Nat) (l : List α) : List (Option α) :=
  l.map some ++ List.replicate (n - l.length) none

/-- An initialized block of capacity `n` with the given tables, the cursor as after reset. -/
def block (n : Config.Capacity) (staging : List StagingEntry) (active : List ActiveEntry) : State :=
  { State.resetOf n with
    staging := padded n.val staging
    active := padded n.val active
    nextHandle := BitVec.ofNat 8 staging.length
    initialized := true }

/-- The cursor `(f, p, sp, el, lat)` of 95_test_vectors.md. -/
def cursor (f : Fin 5) (p : Fin 4) (sp : Nat) (el : Deadline) (lat : Option CallbackId) (s : State) :
    State :=
  { s with
    currentFrame := f
    currentPeriod := p
    scanPosition := sp
    elapsedFrameTime := el
    latchedTask := lat }

/-- The frame-advance task as INIT stages it. -/
def fa : StagingEntry := ⟨0, 0xFFFF, 0⟩

/-- The active table `A` of 95_test_vectors.md 2.4. -/
def tableA : List ActiveEntry := [⟨0xFF8A, 1⟩, ⟨0xFFB2, 2⟩, ⟨0xFFDA, 3⟩, ⟨0xFFFF, 0⟩]

/-- A block of capacity 4, full in both tables, in the middle of a frame, with a TICK presented. -/
def midRun : State :=
  { cursor 0 0 2 100 (some 2)
      (block ⟨4, by decide⟩ [⟨1, 0xFF8A, 1⟩, ⟨2, 0xFFB2, 2⟩, ⟨3, 0xFFDA, 3⟩, fa] tableA) with
    trace := [.writeDeadline 175]
    deadlineLast := some 175
    port := [.command 0x7000000000000000] }

/-- A halted block. -/
def haltedRun : State := { midRun with fault := true, faultCode := 1 }

/-- A block with INIT, one REG and nothing published, capacity 3. -/
def booted : State := block ⟨3, by decide⟩ [fa, ⟨1, 0xFF8A, 1⟩] []

/-! ## The word checks, an ill-formed word for each (30_encoding.md R75, R79) -/

theorem test_wf_rejects_reserved_opcode_0 : CommandWord.opAssigned 0x0000000000000000 = false := by
  decide
theorem test_wf_rejects_reserved_opcode_E : CommandWord.opAssigned 0xE000000000000000 = false := by
  decide
theorem test_wf_rejects_rsv : CommandWord.rsvZero 0x2100000000000000 = false := by decide
theorem test_wf_rejects_k : CommandWord.kZeroUnlessUsed 0x7001000000000000 = false := by decide
theorem test_wf_rejects_a2 : CommandWord.a2ZeroUnlessUsed 0x3001000100000005 = false := by decide
theorem test_wf_rejects_a1 : CommandWord.a1ZeroUnlessUsed 0x3001000000010005 = false := by decide
theorem test_wf_rejects_a0 : CommandWord.a0ZeroUnlessUsed 0x1000000000000001 = false := by decide
theorem test_wf_words_are_rejected :
    CommandWord.wellFormed 0x2100000000000000 = false ∧
    CommandWord.wellFormed 0x7001000000000000 = false ∧
    CommandWord.wellFormed 0x1000000000000001 = false ∧
    CommandWord.wellFormed 0x3001000000010005 = false := by decide
theorem test_wf_accepts_full_register_word : CommandWord.wellFormed 0x20FFFFFFFFFFFFFF = true := by decide

/-- Operands outside the documented range, one for each check (R80). -/
theorem test_range_checks :
    Instr.inDocumentedRange (.reg 128 0 0 1) = false ∧ Instr.inDocumentedRange (.reg 0 32 0 1) = false ∧
    Instr.inDocumentedRange (.reg 0 0 16 1) = false ∧ Instr.inDocumentedRange (.sett 1 128) = false ∧
    Instr.inDocumentedRange (.setf 1 32) = false ∧ Instr.inDocumentedRange (.setp 1 16) = false ∧
    Instr.inDocumentedRange (.enct 0 128) = false ∧ Instr.inDocumentedRange (.encf 0 32) = false ∧
    Instr.inDocumentedRange (.encp 0 16) = false ∧
    Instr.inDocumentedRange (.reg 127 31 15 1) = true := by decide

/-! ## Decoding (95_test_vectors.md 2.1) -/

theorem test_decode_init : decode 0x1000000000000000 = .ok .init := by decide
theorem test_decode_reg : decode 0x2001000F001F000A = .ok (.reg 10 0x1F 0xF 1) := by decide
theorem test_decode_reg_wide : decode 0x2001001F003F00C8 = .ok (.reg 200 0x3F 0x1F 1) := by decide
theorem test_decode_sett : decode 0x300100000000003C = .ok (.sett 1 60) := by decide
theorem test_decode_setf : decode 0x4002000000000002 = .ok (.setf 2 (Config.frameBit 1)) := by decide
theorem test_decode_setp : decode 0x500300000000000A = .ok (.setp 3 0xA) := by decide
theorem test_decode_pub : decode 0x6000000000000000 = .ok .pub := by decide
theorem test_decode_tick : decode 0x7000000000000000 = .ok .tick := by decide
theorem test_decode_enct : decode 0x80000000000AFFFF = .ok (.enct 0xFFFF 10) := by decide
theorem test_decode_encf : decode 0x90000000001F000A = .ok (.encf 0x000A 0x1F) := by decide
theorem test_decode_encp : decode 0xA0000000000F0F8A = .ok (.encp 0x0F8A 0xF) := by decide
theorem test_decode_dect : decode 0xB00000000000A2B2 = .ok (.dect 0xA2B2) := by decide
theorem test_decode_decf : decode 0xC00000000000A2B2 = .ok (.decf 0xA2B2) := by decide
theorem test_decode_decp : decode 0xD00000000000A2B2 = .ok (.decp 0xA2B2) := by decide

/-- Illegal words, each rejected by the name of its fault (R79). -/
theorem test_decode_rejects_by_name :
    decode 0x0000000000000000 = .error (.reservedOpcode 0) ∧
    decode 0xF000000000000000 = .error (.reservedOpcode 0xF) ∧
    decode 0x1000000000000001 = .error (.unusedOperandSet .f0) ∧
    decode 0x2100000000000000 = .error (.reservedFieldSet 1) ∧
    decode 0x3001000000010005 = .error (.unusedOperandSet .fs) ∧
    decode 0x8001000000000000 = .error (.unusedOperandSet .fe) ∧
    decode 0xB000000000010000 = .error (.unusedOperandSet .fd) := by decide

theorem test_decodeTableWord : decodeTableWord 64 0x2001000F001F000A = some (.reg 10 0x1F 0xF 1) := by
  decide

/-- The listing form, in decimal (R90). -/
theorem test_listing : Instr.listing (.reg 10 0x1F 0xF 1) = "REG 10, 31, 15, 1" := by decide

/-- Response words (R78). -/
theorem test_response_words :
    responseWord (.ok 0xA2B2) = 0x0A2B2#18 ∧ responseWord .none = 0x10000#18 ∧
    responseWord (.refused .halted) = 0x20004#18 ∧ responseWord (.fault 1) = 0x30001#18 := by decide

/-- The distances the scenario's deadlines ask for, and the two ends (60_exceptions.md R207). -/
theorem test_ticksAsked :
    ticksAsked 235 = 20 ∧ ticksAsked 175 = 80 ∧ ticksAsked 255 = 0 ∧ ticksAsked 1 = 254 := by decide

/-! ## The schedule codec (95_test_vectors.md 2.2) -/

theorem test_enct_responds : (after (.enct 0x1234 0) State.reset).trace = [.response (.ok 0x1200)] := by
  decide
theorem test_enct_spills : (after (.enct 0xFF8A 0x1234) State.reset).trace = [.response (.ok 0xFFB4)] := by
  decide
theorem test_encf_responds :
    (after (.encf 0xF07F 0x15) State.reset).trace = [.response (.ok 0xFAFF)] := by decide
theorem test_encf_spills :
    (after (.encf 0xA28A 0x3F) State.reset).trace = [.response (.ok 0xBF8A)] := by decide
theorem test_encp_responds : (after (.encp 0x0ABC 5) State.reset).trace = [.response (.ok 0x5ABC)] := by
  decide
theorem test_encp_drops : (after (.encp 0xFFFF 0x13) State.reset).trace = [.response (.ok 0x3FFF)] := by
  decide
theorem test_dect_responds : (after (.dect 0xA2B2) State.reset).trace = [.response (.ok 50)] := by decide
theorem test_decf_responds : (after (.decf 0x8080) State.reset).trace = [.response (.ok 1)] := by decide
theorem test_decp_responds : (after (.decp 0xA2B2) State.reset).trace = [.response (.ok 10)] := by decide
theorem test_codec_is_refused_when_halted :
    (after (.decp 0xA2B2) haltedRun).trace = [.writeDeadline 175, .response (.refused .halted)] := by
  decide

/-! ## The matcher and the frame advance (95_test_vectors.md 2.3) -/

theorem test_match :
    matchesIn 4 3 0xFFFF = true ∧ matchesIn 0 0 0x1080 = true ∧ matchesIn 1 0 0x1080 = false ∧
    matchesIn 0 1 0x1080 = false ∧ matchesIn 4 3 0x8800 = true ∧ matchesIn 2 1 0x0FFF = false ∧
    matchesIn 2 1 0xF07F = false ∧ matchesIn 2 3 0xA28A = true ∧ matchesIn 0 0 0xA28A = false := by
  decide

theorem test_fadv :
    nextFramePeriod 0 0 = (1, 0) ∧ nextFramePeriod 3 2 = (4, 2) ∧ nextFramePeriod 4 0 = (0, 1) ∧
    nextFramePeriod 4 3 = (0, 0) := by decide

/-! ## TICK (95_test_vectors.md 2.4) -/

/-- Sentinel latched in the last frame and period: FADV wraps both, then the scan starts at 0. -/
theorem test_tick_frame_advance :
    let t := after .tick (cursor 4 3 4 254 (some 0) (block ⟨10, by decide⟩ [] tableA))
    (t.currentFrame, t.currentPeriod, t.scanPosition, t.elapsedFrameTime, t.latchedTask) =
      (0, 0, 1, 20, some 1) ∧
    t.trace = [.fire 0, .writeDeadline 235, .response (.ok 0)] := by decide

/-- A narrowed sentinel: the scan stops at the first empty slot and the fatal fault is raised. -/
theorem test_tick_exhausted :
    let t := after .tick
      (cursor 1 0 1 20 (some 1) (block ⟨10, by decide⟩ [] [⟨0xFF8A, 1⟩, ⟨0xF0FF, 0⟩]))
    (t.scanPosition, t.elapsedFrameTime, t.latchedTask, t.fault, t.faultCode) =
      (2, 20, some 1, true, 1) ∧
    t.trace = [.fire 1, .fault 1, .response (.fault 1)] := by decide

/-! ## The mutator's commands (95_test_vectors.md 2.5) -/

theorem test_init :
    let t := after .init (State.resetOf ⟨2, by decide⟩)
    (t.staging, t.nextHandle, t.initialized, t.trace) =
      ([some fa, none], 1, true, [.response (.ok 0)]) := by decide
theorem test_init_twice_is_refused :
    after .init booted = { booted with trace := [.response (.refused .badSequence)] } := by decide

/-- Over-wide operands leave no spill in a registered word. -/
theorem test_reg :
    let t := after (.reg 200 0x3F 0x1F 7) booted
    (t.staging, t.nextHandle, t.trace) =
      ([some fa, some ⟨1, 0xFF8A, 1⟩, some ⟨2, 0xFFC8, 7⟩], 3, [.response (.ok 2)]) := by decide
theorem test_reg_full_is_a_noop :
    after (.reg 30 0x1F 0xF 3) midRun =
      { midRun with trace := [.writeDeadline 175, .response .none] } := by decide

/-- Lookup is by handle, not by index. -/
theorem test_sett :
    (after (.sett 2 5) midRun).staging =
      [some ⟨1, 0xFF8A, 1⟩, some ⟨2, 0xFF85, 2⟩, some ⟨3, 0xFFDA, 3⟩, some fa] := by decide
theorem test_sett_bad_handle :
    after (.sett 2 5) booted = { booted with trace := [.response (.refused .badHandle)] } := by decide
theorem test_setf : (after (.setf 1 0x05) booted).staging = [some fa, some ⟨1, 0xF28A, 1⟩, none] := by
  decide
theorem test_setp : (after (.setp 1 0xA) booted).staging = [some fa, some ⟨1, 0xAF8A, 1⟩, none] := by
  decide

/-- Slots 10, 127, 127, 10: ascending, and entries of equal slot keep their order. -/
theorem test_pub_sort_is_stable :
    (after .pub (block ⟨4, by decide⟩ [⟨1, 0xFF8A, 1⟩, fa, ⟨2, 0xFFFF, 2⟩, ⟨3, 0xFF8A, 3⟩] [])).active =
      [some ⟨0xFF8A, 1⟩, some ⟨0xFF8A, 3⟩, some ⟨0xFFFF, 0⟩, some ⟨0xFFFF, 2⟩] := by decide
theorem test_pub_before_init_is_refused :
    (after .pub State.reset).trace = [.response (.refused .badSequence)] := by decide

/-! ## One step from the port -/

theorem test_step_runs_the_fetched_word :
    (outState (step (State.reset.withFetchWord 64 0x80000000000AFFFF))).map (·.trace) =
      some [.response (.ok 0xFF8A)] := by decide
theorem test_step_refuses_an_illegal_word :
    (outState (step (State.reset.withFetchWord 64 0xE000000000000000))).map (·.trace) =
      some [.response (.refused .illegalEncoding)] := by decide
theorem test_step_reset_leaves_the_halt :
    (outState (step (presentNext .rst haltedRun))).map (fun t => (t.fault, t.trace, t.staging)) =
      some (false, [], [none, none, none, none]) := by decide

/-! ## Witnesses: what meets the hypotheses of the statements

One theorem per statement with hypotheses, named after it. `exec_after` shows that the hypothesis
`exec i s = .next t` is met by every command in every state. -/

theorem exec_after (i : Instr) (s : State) : exec i s = .next (after i s) := by cases i <;> rfl

/-- The invariant holds in a state in the middle of a frame, both tables full. -/
theorem midRun_inv : StateInv midRun where
  tables := by decide
  scanBound := by decide
  stagingPacked := by unfold ValidBelow; decide
  handlesOnce := by decide
  activePacked := ⟨4, by unfold ValidBelow; decide⟩
  activeSorted := by
    intro i a b ha hb
    match i with
    | 0 => cases ha; cases hb; decide
    | 1 => cases ha; cases hb; decide
    | 2 => cases ha; cases hb; decide
    | n + 3 => exact absurd hb (by simp [actRead, midRun, cursor, block, padded, tableA])
  elapsedEven := by decide
  faultCodeFits := by decide
  unmasked := by decide
  beforeInit := fun h => absurd h (by decide)
  afterInit := by decide
  latchedFits := by decide
  deadlineFits := by decide

theorem midRun_sentinel : SentinelInv midRun where
  running := by decide
  started := by decide
  sentinel := ⟨3, 3, by decide, by decide, by decide, by decide, by decide, by decide,
    .inr (by decide)⟩

/-- The cursor stands behind the entry of slot 50, whose deadline units are the elapsed time. -/
theorem midRun_cursor : CursorInFrame midRun :=
  .inr (.inr ⟨1, ⟨0xFFB2, 2⟩, by decide, by decide, by decide⟩)

theorem witness_EncodeOfDecodeIsTheWord : decode 0x2001000F001F000A = .ok (.reg 10 0x1F 0xF 1) := by
  decide

theorem witness_StepPerformsTheDecodedCommand :
    midRun.port = .command 0x7000000000000000 :: [] ∧ decode 0x7000000000000000 = .ok .tick := by decide

/-- Running, and halted. -/
theorem witness_StepRefusesIllegalWords :
    let c : CommandWord := 0x3001000000010005
    (presentNext (.command c) booted).port = .command c :: [] ∧
    (presentNext (.command c) booted).fault = false ∧
    (presentNext (.command c) haltedRun).port = .command c :: [.command 0x7000000000000000] ∧
    (presentNext (.command c) haltedRun).fault = true ∧
    decode c = .error (.unusedOperandSet .fs) := by decide

theorem witness_ResetInputRestoresTheResetState :
    (presentNext .rst haltedRun).port = .rst :: [.command 0x7000000000000000] := by decide

theorem witness_StepWithNothingPresentedWaits : booted.port = [] := by decide

theorem witness_EncodersAnswerTheNewWord : midRun.fault = false ∧ State.reset.fault = false := by decide

theorem witness_DecodersAnswerTheField : midRun.fault = false ∧ State.reset.fault = false := by decide

/-- Each range at its upper end. -/
theorem witness_InRangeEncodeIsReadBackAndKeepsTheOtherFields :
    (127 : BitVec 16).toNat ≤ 127 ∧ (31 : BitVec 16).toNat ≤ 31 ∧ (15 : BitVec 16).toNat ≤ 15 := by decide

/-- A word without frames, a word without periods, and two words with the same masks. -/
theorem witness_MatchTestsOneFrameAndOnePeriodBit :
    frameMask 0xF07F = 0 ∧ periodMask 0x0FFF = 0 ∧
    frameMask 0xA2B2 = frameMask 0xA28A ∧ periodMask 0xA2B2 = periodMask 0xA28A := by decide

/-- The last frame, the frame before it, a TICK that starts FADV and a command that does not. -/
theorem witness_FrameAdvanceTransitionAndItsOnlyStart :
    (cursor 4 3 4 254 (some 0) midRun).currentFrame.val = 4 ∧
    (cursor 3 3 4 254 (some 0) midRun).currentFrame.val < 4 ∧
    (exec .tick (cursor 4 3 4 254 (some 0) midRun) =
      .next (after .tick (cursor 4 3 4 254 (some 0) midRun))) ∧
    ((cursor 4 3 4 254 (some 0) midRun).fault = false ∧
      (cursor 4 3 4 254 (some 0) midRun).latchedTask = some 0) ∧
    exec .pub midRun = .next (after .pub midRun) :=
  ⟨by decide, by decide, exec_after _ _, by decide, exec_after _ _⟩

theorem witness_FrameAdvanceCyclesThroughTwentyStates :
    midRun.currentFrame = 0 ∧ midRun.currentPeriod = 0 := by decide

theorem witness_FireStageRequestsTheLatchedCallback :
    booted.latchedTask = none ∧ (cursor 0 0 4 254 (some 0) midRun).latchedTask = some 0 ∧
    ((2 : CallbackId) ≠ 0 ∧ midRun.latchedTask = some 2) := by decide

/-- The active table of 95_test_vectors.md P2: two entries that do not match stand before the match. -/
def skipping : State :=
  cursor 0 0 1 40 (some 1)
    (block ⟨4, by decide⟩ [] [⟨0xF294, 1⟩, ⟨0x2F94, 2⟩, ⟨0xF864, 3⟩, ⟨0xFFFF, 0⟩])

/-- The match is the last slot of the table, behind two entries passed over. -/
theorem witness_TickFindsProgramsAndLatches :
    skipping.fault = false ∧ (fireStage skipping).scanPosition ≤ 3 ∧ 3 < skipping.capacity.val ∧
    actRead skipping 3 = some ⟨0xFFFF, 0⟩ ∧ matchesNow (fireStage skipping) 0xFFFF = true ∧
    ∀ j, (fireStage skipping).scanPosition ≤ j → j < 3 →
      ∃ e', actRead skipping j = some e' ∧ matchesNow (fireStage skipping) e'.word = false := by
  refine ⟨by decide, by decide, by decide, by decide, by decide, fun j h1 h2 => ?_⟩
  match j with
  | 0 => exact absurd h1 (by decide)
  | 1 => exact ⟨⟨0x2F94, 2⟩, by decide, by decide⟩
  | 2 => exact ⟨⟨0xF864, 3⟩, by decide, by decide⟩
  | n + 3 => exact absurd h2 (by omega)

/-- A narrowed sentinel in frame 0 (95_test_vectors.md 2.4), with no empty slot behind it (`N = 2`) and
with one (`N = 3`). -/
def narrowed (n : Config.Capacity) : State :=
  cursor 0 0 1 20 (some 1) (block n [] [⟨0xFF8A, 1⟩, ⟨0xF07F, 0⟩])

/-- The stop at the end of the table. -/
theorem witness_ExhaustedScanRaisesTheFatalFault_end :
    let s := narrowed ⟨2, by decide⟩
    s.fault = false ∧ (fireStage s).scanPosition ≤ 2 ∧ 2 ≤ s.capacity.val ∧
    (2 = s.capacity.val ∨ actRead s 2 = none) ∧
    ∀ j, (fireStage s).scanPosition ≤ j → j < 2 →
      ∃ e', actRead s j = some e' ∧ matchesNow (fireStage s) e'.word = false := by
  refine ⟨by decide, by decide, by decide, .inl (by decide), fun j h1 h2 => ?_⟩
  match j with
  | 0 => exact absurd h1 (by decide)
  | 1 => exact ⟨⟨0xF07F, 0⟩, by decide, by decide⟩
  | n + 2 => exact absurd h2 (by omega)

/-- The stop at the first empty slot. -/
theorem witness_ExhaustedScanRaisesTheFatalFault_empty :
    let s := narrowed ⟨3, by decide⟩
    s.fault = false ∧ (fireStage s).scanPosition ≤ 2 ∧ 2 ≤ s.capacity.val ∧
    (2 = s.capacity.val ∨ actRead s 2 = none) ∧
    ∀ j, (fireStage s).scanPosition ≤ j → j < 2 →
      ∃ e', actRead s j = some e' ∧ matchesNow (fireStage s) e'.word = false := by
  refine ⟨by decide, by decide, by decide, .inr (by decide), fun j h1 h2 => ?_⟩
  match j with
  | 0 => exact absurd h1 (by decide)
  | 1 => exact ⟨⟨0xF07F, 0⟩, by decide, by decide⟩
  | n + 2 => exact absurd h2 (by omega)

/-- A TICK that succeeds and one that faults. -/
theorem witness_TickSucceedsExactlyWhenAMatchLiesAhead :
    (midRun.fault = false ∧ midRun.active.length = midRun.capacity.val ∧ ValidBelow midRun.active 4 ∧
      exec .tick midRun = .next (after .tick midRun) ∧ (after .tick midRun).fault = false) ∧
    let s := narrowed ⟨3, by decide⟩
    s.fault = false ∧ s.active.length = s.capacity.val ∧ ValidBelow s.active 2 ∧
      exec .tick s = .next (after .tick s) ∧ (after .tick s).fault = true :=
  ⟨⟨by decide, by decide, by unfold ValidBelow; decide, exec_after _ _, by decide⟩,
    by decide, by decide, by unfold ValidBelow; decide, exec_after _ _, by decide⟩

theorem witness_TickBeforeTheFirstPublishFaults :
    booted.fault = false ∧ booted.latchedTask = none ∧ booted.scanPosition ≤ booted.capacity.val ∧
    ∀ i, actRead booted i = none := by
  refine ⟨by decide, by decide, by decide, fun i => ?_⟩
  match i with
  | 0 => decide
  | 1 => decide
  | 2 => decide
  | n + 3 => simp [actRead, booted, block, padded]

/-- The distance 0, and the least negative one. -/
theorem witness_DeadlineValueArithmetic :
    (20 : Deadline).toNat ≤ 2 * (timeSlot 0xFF8A).toNat ∧
    2 * (timeSlot 0xFF8A).toNat < (21 : Deadline).toNat := by decide

/-- Both outcomes. -/
theorem witness_TickEventsComeInStageOrder :
    (midRun.fault = false ∧ exec .tick midRun = .next (after .tick midRun) ∧
      (after .tick midRun).fault = false) ∧
    (booted.fault = false ∧ exec .tick booted = .next (after .tick booted) ∧
      (after .tick booted).fault = true) :=
  ⟨⟨by decide, exec_after _ _, by decide⟩, by decide, exec_after _ _, by decide⟩

theorem witness_LatchIsNeverEmptiedByACommand :
    exec .tick midRun = .next (after .tick midRun) ∧ midRun.latchedTask ≠ none ∧
    midRun.fault = false ∧ (after .tick midRun).fault = false :=
  ⟨exec_after _ _, by decide, by decide, by decide⟩

theorem witness_DeadlineNeverWrapsInsideAFrame :
    StateInv midRun ∧ CursorInFrame midRun ∧ midRun.fault = false ∧
    exec .tick midRun = .next (after .tick midRun) ∧ (after .tick midRun).fault = false :=
  ⟨midRun_inv, midRun_cursor, by decide, exec_after _ _, by decide⟩

/-- The state one step of `midRun` gives. -/
def midRunNext : State := (outState (step midRun)).getD midRun

theorem step_midRun : step midRun = .next midRunNext := rfl

theorem witness_CursorStaysInFrameWithoutPublish :
    StateInv midRun ∧ (midRun.fault = false → CursorInFrame midRun) ∧ step midRun = .next midRunNext ∧
    (∀ c rest, midRun.port = .command c :: rest → decode c ≠ .ok .pub) ∧ midRunNext.fault = false := by
  refine ⟨midRun_inv, fun _ => midRun_cursor, step_midRun, fun c rest h => ?_, by decide⟩
  cases h
  decide

theorem witness_SentinelConditionIsKeptSoNoTickFaults :
    StateInv midRun ∧ SentinelInv midRun ∧ step midRun = .next midRunNext ∧
    ∀ input rest, midRun.port = input :: rest → keepsSentinel input = true := by
  refine ⟨midRun_inv, midRun_sentinel, step_midRun, fun input rest h => ?_⟩
  cases h
  decide

/-- INIT from reset, and a PUB after it: at the frame's start, and behind the sentinel of a running
frame. -/
theorem witness_FirstPublishEstablishesTheSentinel :
    (Memory.wf State.reset ∧ State.reset.fault = false ∧ State.reset.initialized = false ∧
      exec .init State.reset = .next (after .init State.reset)) ∧
    (Memory.wf booted ∧ booted.fault = false ∧ booted.initialized = true ∧ SentinelStaged booted ∧
      (booted.latchedTask = some 0 ∨ booted.scanPosition = 0) ∧
      exec .pub booted = .next (after .pub booted)) ∧
    let s := cursor 0 0 4 254 (some 0) midRun
    Memory.wf s ∧ s.fault = false ∧ s.initialized = true ∧ SentinelStaged s ∧
      (s.latchedTask = some 0 ∨ s.scanPosition = 0) ∧ exec .pub s = .next (after .pub s) :=
  ⟨⟨by decide, by decide, by decide, exec_after _ _⟩,
    ⟨by decide, by decide, by decide, ⟨0, by decide, by decide⟩, .inr (by decide), exec_after _ _⟩,
    by decide, by decide, by decide, ⟨3, by decide, by decide⟩, .inl (by decide), exec_after _ _⟩

theorem witness_InitRegistersTheFrameAdvanceTask :
    State.reset.fault = false ∧ State.reset.initialized = false := by decide

/-- The first empty slot is the last slot of the table. -/
theorem witness_RegisterFillsTheFirstEmptySlot :
    booted.fault = false ∧ booted.initialized = true ∧ 2 < booted.staging.length ∧
    stgRead booted 2 = none ∧ ∀ j, j < 2 → stgRead booted j ≠ none := by decide

theorem witness_RegisterWhenFullIsANoOp :
    midRun.fault = false ∧ midRun.initialized = true ∧
    ∀ j, j < midRun.staging.length → stgRead midRun j ≠ none := by decide

/-- Each clause: halted, before INIT, a handle not in the table, and the handle of an entry that is not
at its own index. -/
theorem witness_SettersReencodeOneStagedWord :
    haltedRun.fault = true ∧
    (State.reset.fault = false ∧ State.reset.initialized = false) ∧
    (booted.fault = false ∧ booted.initialized = true ∧
      ∀ j e, stgRead booted j = some e → e.handle ≠ 2) ∧
    (midRun.fault = false ∧ midRun.initialized = true ∧ stgRead midRun 1 = some ⟨2, 0xFFB2, 2⟩ ∧
      ∀ j' e', j' < 1 → stgRead midRun j' = some e' → e'.handle ≠ 2) := by
  refine ⟨by decide, by decide, ⟨by decide, by decide, fun j e h => ?_⟩, by decide, by decide, by decide,
    fun j' e' hj h => ?_⟩
  · match j with
    | 0 => cases h; decide
    | 1 => cases h; decide
    | 2 => exact absurd h (by simp [stgRead, booted, block, padded])
    | n + 3 => exact absurd h (by simp [stgRead, booted, block, padded])
  · match j' with
    | 0 => cases h; decide
    | n + 1 => exact absurd hj (by omega)

theorem witness_StagingWritesLeaveEverythingElse :
    exec (.sett 2 5) midRun = .next (after (.sett 2 5) midRun) ∧ lookupHandle midRun 2 = some 1 ∧
    exec (.reg 30 0x1F 0xF 3) booted = .next (after (.reg 30 0x1F 0xF 3) booted) ∧
    firstEmptySlot booted = some 2 :=
  ⟨exec_after _ _, by decide, exec_after _ _, by decide⟩

theorem witness_PublishSortsThenCopiesTheWholeTable :
    booted.fault = false ∧ booted.initialized = true := by decide

/-- A table with an empty slot behind the entries, and a full one. -/
theorem witness_SortIsTheStableAscendingOrder :
    (booted.staging = [fa, ⟨1, 0xFF8A, 1⟩].map some ++ [none] ∧
      (([none] : List (Option StagingEntry)) = [] ∨
        ∃ rest, ([none] : List (Option StagingEntry)) = none :: rest)) ∧
    midRun.staging = [⟨1, 0xFF8A, 1⟩, ⟨2, 0xFFB2, 2⟩, ⟨3, 0xFFDA, 3⟩, fa].map some ++ [] :=
  ⟨⟨by decide, .inr ⟨[], rfl⟩⟩, by decide⟩

theorem witness_PublishedTableIsPackedAndAscending :
    booted.fault = false ∧ booted.initialized = true ∧ ValidBelow booted.staging 2 ∧
    exec .pub booted = .next (after .pub booted) :=
  ⟨by decide, by decide, by unfold ValidBelow; decide, exec_after _ _⟩

/-- The greatest registered handle and the least unregistered one. -/
theorem witness_LookupFindsExactlyTheRegisteredHandles :
    StateInv midRun ∧ (3 : TaskHandle).toNat < midRun.nextHandle.toNat ∧
    midRun.nextHandle.toNat ≤ (4 : TaskHandle).toNat :=
  ⟨midRun_inv, by decide, by decide⟩

theorem witness_EachContextWritesOnlyItsOwnHalf :
    exec .tick midRun = .next (after .tick midRun) ∧ Instr.agent .tick = .dispatcher ∧
    exec .pub midRun = .next (after .pub midRun) ∧ Instr.agent .pub = .mutator ∧
    exec (.dect 7) midRun = .next (after (.dect 7) midRun) ∧ Instr.isCodec (.dect 7) = true :=
  ⟨exec_after _ _, by decide, exec_after _ _, by decide, exec_after _ _, by decide⟩

/-- Two states with the same dispatcher half and different staging tables. -/
theorem witness_TickDependsOnTheDispatcherHalfOnly :
    dispatcherHalf midRun = dispatcherHalf { midRun with staging := [none, none, none, none] } ∧
    exec .tick midRun = .next (after .tick midRun) ∧
    exec .tick { midRun with staging := [none, none, none, none] } =
      .next (after .tick { midRun with staging := [none, none, none, none] }) :=
  ⟨by decide, exec_after _ _, exec_after _ _⟩

/-- Two states with the same mutator half and different cursors. -/
theorem witness_MutatorCommandsDependOnTheMutatorHalfOnly :
    let s := cursor 3 2 0 0 none midRun
    Instr.agent .pub = .mutator ∧ mutatorHalf midRun = mutatorHalf s ∧ midRun.fault = s.fault ∧
    midRun.capacity = s.capacity ∧ exec .pub midRun = .next (after .pub midRun) ∧
    exec .pub s = .next (after .pub s) ∧ midRun.fault = false ∧ midRun.initialized = true :=
  ⟨by decide, by decide, by decide, by decide, exec_after _ _, exec_after _ _, by decide, by decide⟩

theorem witness_StagingWritesAreNotObservedByTick :
    (∃ h v, Instr.sett 1 60 = .sett h v ∨ Instr.sett 1 60 = .setf h v ∨ Instr.sett 1 60 = .setp h v) ∧
    exec (.sett 1 60) midRun = .next (after (.sett 1 60) midRun) ∧
    exec .tick midRun = .next (after .tick midRun) ∧
    exec .tick (after (.sett 1 60) midRun) = .next (after .tick (after (.sett 1 60) midRun)) :=
  ⟨⟨1, 60, .inl rfl⟩, exec_after _ _, exec_after _ _, exec_after _ _⟩

/-- A published block of capacity 3 with one staging slot left. -/
def published : State := block ⟨3, by decide⟩ [fa, ⟨1, 0xFF8A, 1⟩] [⟨0xFF8A, 1⟩, ⟨0xFFFF, 0⟩]

/-- A setter that finds its handle. -/
theorem witness_TickCommutesWithStagingWrites :
    (∃ h v, Instr.sett 1 60 = .sett h v ∨ Instr.sett 1 60 = .setf h v ∨ Instr.sett 1 60 = .setp h v) ∧
    exec .tick midRun = .next (after .tick midRun) ∧ (after .tick midRun).fault = false ∧
    exec (.sett 1 60) (after .tick midRun) = .next (after (.sett 1 60) (after .tick midRun)) ∧
    exec (.sett 1 60) midRun = .next (after (.sett 1 60) midRun) ∧
    exec .tick (after (.sett 1 60) midRun) = .next (after .tick (after (.sett 1 60) midRun)) :=
  ⟨⟨1, 60, .inl rfl⟩, exec_after _ _, by decide, exec_after _ _, exec_after _ _, exec_after _ _⟩

/-- A REG that takes the last slot; a second one after it finds the table full. -/
theorem witness_TickCommutesWithStagingWrites_reg :
    let i : Instr := .reg 30 0x1F 0xF 3
    (∃ tm f p cb, i = .reg tm f p cb) ∧ exec .tick published = .next (after .tick published) ∧
    (after .tick published).fault = false ∧
    exec i (after .tick published) = .next (after i (after .tick published)) ∧
    exec i published = .next (after i published) ∧
    exec .tick (after i published) = .next (after .tick (after i published)) ∧
    firstEmptySlot published = some 2 ∧ firstEmptySlot (after i published) = none :=
  ⟨⟨30, 0x1F, 0xF, 3, rfl⟩, exec_after _ _, by decide, exec_after _ _, exec_after _ _, exec_after _ _,
    by decide, by decide⟩

theorem witness_HaltedUntilReset :
    haltedRun.fault = true ∧ step haltedRun = .next ((outState (step haltedRun)).getD haltedRun) ∧
    (presentNext .rst haltedRun).fault = true ∧
    step (presentNext .rst haltedRun) =
      .next ((outState (step (presentNext .rst haltedRun))).getD haltedRun) :=
  ⟨by decide, rfl, by decide, rfl⟩

/-- The trace the last clause speaks of is met by every command; here by a TICK. -/
theorem witness_CommandsOutOfSequenceAreRefused :
    (midRun.fault = false ∧ midRun.initialized = true) ∧
    (State.reset.fault = false ∧ State.reset.initialized = false) ∧
    exec .tick State.reset = .next (after .tick State.reset) ∧
    Adds State.reset (after .tick State.reset) [.fault 1, .response (.fault 1)] :=
  ⟨by decide, by decide, exec_after _ _, by decide⟩

theorem witness_EveryCommandGetsExactlyOneResponse :
    exec .tick midRun = .next (after .tick midRun) := exec_after _ _

/-- A BAD_HANDLE refusal, and a HALTED one. -/
theorem witness_RefusedCommandsChangeNoState :
    exec (.sett 9 5) midRun = .next (after (.sett 9 5) midRun) ∧
    Adds midRun (after (.sett 9 5) midRun) ([] ++ [.response (.refused .badHandle)]) ∧
    exec .tick haltedRun = .next (after .tick haltedRun) ∧
    Adds haltedRun (after .tick haltedRun) ([] ++ [.response (.refused .halted)]) :=
  ⟨exec_after _ _, by decide, exec_after _ _, by decide⟩

/-- A clean state before and after a TICK, and a reset. -/
theorem witness_TraceOnlyGrowsUntilReset :
    step midRun = .next midRunNext ∧ State.Clean midRunNext ∧
    step (presentNext .rst haltedRun) =
      .next ((outState (step (presentNext .rst haltedRun))).getD haltedRun) := by
  refine ⟨step_midRun, fun e he => ?_, rfl⟩
  have : midRunNext.trace = [.writeDeadline 175, .fire 2, .writeDeadline 175, .response (.ok 0)] := by
    decide
  rw [this] at he
  fin_cases he <;> simp

/-- A successful TICK, and a TICK that faults. -/
theorem witness_OnlyASuccessfulTickWritesTheDeadline :
    (exec .tick midRun = .next (after .tick midRun) ∧ midRun.fault = false ∧
      (after .tick midRun).fault = false) ∧
    exec .tick booted = .next (after .tick booted) ∧ (after .tick booted).fault = true :=
  ⟨⟨exec_after _ _, by decide, by decide⟩, exec_after _ _, by decide⟩

theorem witness_StateInvariantIsKeptByEveryStep : StateInv midRun ∧ step midRun = .next midRunNext :=
  ⟨midRun_inv, step_midRun⟩

end Sys2Proof.Tests
end

/-! PROOFS. The obligations of 20_memory.md: the isolation of the staging table (R60). -/

namespace Sys2Proof.Machine

open Sys2Proof

/-! ### REG and the setters write the staging table and the next handle only -/

/-- The commands R60 speaks of: REG and the three setters. -/
abbrev StagingWrite (i : Instr) : Prop :=
  (∃ tm f p cb, i = .reg tm f p cb) ∨ (∃ h v, i = .sett h v ∨ i = .setf h v ∨ i = .setp h v)

theorem StagingWrite.ne_other_kinds {i : Instr} (hi : StagingWrite i) :
    i.isCodec = false ∧ i ≠ .init ∧ i ≠ .pub ∧ i ≠ .tick := by
  rcases hi with ⟨tm, f, p, cb, rfl⟩ | ⟨h, v, rfl | rfl | rfl⟩ <;> simp [Instr.isCodec]

/-- Whatever a REG or a setter answers, it writes the staging table, the next handle and the trace, and
no other field of the state (20_memory.md R60). -/
theorem exec_stagingWrite_frame {i : Instr} {s t : State} (hi : StagingWrite i)
    (h : exec i s = .next t) :
    ∃ st nh tr, t = { s with staging := st, nextHandle := nh, trace := tr } := by
  obtain ⟨notCodec, notInit, notPub, notTick⟩ := hi.ne_other_kinds
  cases effect_of_exec h with
  | refused | dropped | registered | updated => exact ⟨_, _, _, rfl⟩
  | answered r running codec => simp [notCodec] at codec
  | started running first is => exact absurd is notInit
  | published running ready is => exact absurd is notPub
  | ticked running is => exact absurd is notTick

/-! ### A TICK reads none of what they write -/

theorem exec_tick (s : State) : exec .tick s = .next (unlessHalted dispatchTick s) := rfl

/-- A TICK, accepted or refused, makes the same events and leaves every other field the same whatever the
staging table, the next handle and the trace are (20_memory.md R56, R60). -/
theorem exec_tick_withStaging (s : State) :
    ∃ s' evs, exec .tick s = .next s' ∧ Adds s s' evs ∧ ∀ st nh tr,
      exec .tick { s with staging := st, nextHandle := nh, trace := tr } =
        .next { s' with staging := st, nextHandle := nh, trace := tr ++ evs } := by
  rcases Bool.eq_false_or_eq_true s.fault with halted | running
  · refine ⟨refuse .halted s, [.response (.refused .halted)],
      by rw [exec_tick, unlessHalted_halted _ halted], rfl, fun st nh tr => ?_⟩
    rw [exec_tick, unlessHalted_halted _ (by exact halted)]
    rfl
  · obtain ⟨evs, hadds, hsame⟩ := dispatchTick_withStaging s
    refine ⟨dispatchTick s, evs, by rw [exec_tick, unlessHalted_running _ running], hadds,
      fun st nh tr => ?_⟩
    rw [exec_tick, unlessHalted_running _ (by exact running), hsame]

/-- Settles O45: REG and the setters write no field of the dispatcher half, and a TICK does not read the
fields they do write. -/
theorem stagingWritesAreNotObservedByTick : Obligations.StagingWritesAreNotObservedByTick := by
  intro i s t hi h
  obtain ⟨st, nh, tr, rfl⟩ := exec_stagingWrite_frame hi h
  refine ⟨rfl, fun s' t' hs ht => ?_⟩
  obtain ⟨r, evs, hr, hadds, hsame⟩ := exec_tick_withStaging s
  obtain rfl : r = s' := by simpa [hr] using hs
  obtain rfl : _ = t' := by simpa [hsame] using ht
  exact ⟨rfl, evs, hadds, rfl⟩

end Sys2Proof.Machine

/-! PROOFS. The obligations of 40_codec.md on the six codec commands: their encodings, their results and
their frame (R100 to R106). -/

namespace Sys2Proof.Machine

open Sys2Proof

/-! ### The decodes as arithmetic on the schedule word (R104 to R106) -/

theorem decTime_eq (w : ScheduleWord) : decTime w = BitVec.ofNat 16 (w.toNat % 128) := by
  refine BitVec.eq_of_toNat_eq ?_
  simp [decTime, timeSlot]

theorem decFrame_eq (w : ScheduleWord) : decFrame w = BitVec.ofNat 16 (w.toNat / 128 % 32) := by
  refine BitVec.eq_of_toNat_eq ?_
  simp [decFrame, frameMask, Nat.shiftRight_eq_div_pow]

theorem decPeriod_eq (w : ScheduleWord) : decPeriod w = BitVec.ofNat 16 (w.toNat / 4096) := by
  refine BitVec.eq_of_toNat_eq ?_
  have fits : w.toNat / 4096 < 16 := by have := w.isLt; omega
  simp [decPeriod, periodMask, Nat.shiftRight_eq_div_pow, Nat.mod_eq_of_lt fits,
    Nat.mod_eq_of_lt (Nat.lt_trans fits (by decide : 16 < 65536))]

/-! ### The words of the formats FE and FD (30_encoding.md R77) -/

/-- An FE word: the operands in `a1` and `a0`, every field between them and the opcode zero. -/
theorem feWord_eq_packWord (op : BitVec 4) (v w : Operand) :
    op ++ 0#28 ++ v ++ w = packWord op 0#8 0#16 v w := by
  have zeros : ∀ op : BitVec 4, op ++ 0#28 = op ++ 0#4 ++ 0#8 ++ 0#16 := by decide
  rw [zeros]
  rfl

/-- An FD word: the operand in `a0`, every field between it and the opcode zero. -/
theorem fdWord_eq_packWord (op : BitVec 4) (w : Operand) :
    op ++ 0#44 ++ w = packWord op 0#8 0#16 0#16 w := by
  have zeros : ∀ op : BitVec 4, op ++ 0#44 = op ++ 0#4 ++ 0#8 ++ 0#16 ++ 0#16 := by decide
  rw [zeros]
  rfl

theorem checkFormat_fe (op : BitVec 4) (v w : Operand) (i : Instr) :
    checkFormat .fe (packWord op 0#8 0#16 v w) i = .ok i := by
  refine checkFormat_packWord _ _ _ _ _ _ _ fun j hj asked => ?_
  have high : 32 ≤ j := by simpa [Format.asksZero] using asked
  simp [getLsbD_packWord, hj, show ¬ j < 16 by omega, show ¬ j < 32 by omega]

theorem checkFormat_fd (op : BitVec 4) (w : Operand) (i : Instr) :
    checkFormat .fd (packWord op 0#8 0#16 0#16 w) i = .ok i := by
  refine checkFormat_packWord _ _ _ _ _ _ _ fun j hj asked => ?_
  have high : 16 ≤ j := by simpa [Format.asksZero] using asked
  simp [getLsbD_packWord, hj, show ¬ j < 16 by omega]

/-- The word of a codec command decodes to it, for every value of its operands (R101 to R106). -/
theorem decode_encode_of_isCodec (i : Instr) (codec : i.isCodec = true) :
    decode (encode i) = .ok i := by
  cases i with
  | enct w v | encf w v | encp w v => simp [encode, decode, checkFormat_fe]
  | dect w | decf w | decp w => simp [encode, decode, checkFormat_fd]
  | init | reg | sett | setf | setp | pub | tick => simp [Instr.isCodec] at codec

/-! ### What a codec command does while the block is not halted -/

/-- A codec command adds its response and nothing else (R100). -/
theorem next_answer_running {s : State} {r r' : BitVec 16} (running : s.fault = false) (hr : r = r') :
    (.next (answer r s) : Host.Outcome State Fault Refusal) =
      .next { s with trace := s.trace ++ [.response (.ok r')] } := by
  rw [answer, unlessHalted_running _ running, hr]
  rfl

/-- Settles O13: the masked form of each encode is the answered word, and the FE word with `v` in `a1`
and `w` in `a0` is the command's own. -/
theorem encodersAnswerTheNewWord : Obligations.EncodersAnswerTheNewWord := by
  intro w v s running
  simp only [feWord_eq_packWord]
  exact ⟨⟨next_answer_running running (encTime_eq w v), decode_encode_of_isCodec (.enct w v) rfl⟩,
    ⟨next_answer_running running (encFrame_eq w v), decode_encode_of_isCodec (.encf w v) rfl⟩,
    ⟨next_answer_running running (encPeriod_eq w v), decode_encode_of_isCodec (.encp w v) rfl⟩⟩

/-- Settles O14: each decoded field is the answered value, and the FD word with `w` in `a0` is the
command's own. -/
theorem decodersAnswerTheField : Obligations.DecodersAnswerTheField := by
  intro w s running
  simp only [fdWord_eq_packWord]
  exact ⟨⟨next_answer_running running (decTime_eq w), decode_encode_of_isCodec (.dect w) rfl⟩,
    ⟨next_answer_running running (decFrame_eq w), decode_encode_of_isCodec (.decf w) rfl⟩,
    ⟨next_answer_running running (decPeriod_eq w), decode_encode_of_isCodec (.decp w) rfl⟩⟩

end Sys2Proof.Machine

/-! PROOFS. The obligations of 41_frame_period.md: the frame advance and what starts it (R121), and the
match predicate (R120). -/

namespace Sys2Proof.Machine

open Sys2Proof

/-! ### FADV in its two cases (R121) -/

theorem nextFramePeriod_last (p : Fin 4) :
    nextFramePeriod 4 p = (0, ⟨(p.val + 1) % 4, Nat.mod_lt _ (by decide)⟩) := rfl

theorem nextFramePeriod_of_lt {f : Fin 5} (p : Fin 4) (h : f.val < 4) :
    nextFramePeriod f p = (⟨f.val + 1, by omega⟩, p) := by
  have notLast : f ≠ 4 := Fin.ne_of_val_ne (Nat.ne_of_lt h)
  have sum : f + 1 = ⟨f.val + 1, by omega⟩ := Fin.ext (Nat.mod_eq_of_lt (Nat.succ_lt_succ h))
  rw [nextFramePeriod, if_neg notLast, sum]

theorem fadv_of_last {s : State} (h : s.currentFrame.val = 4) :
    fadv s = { s with
      currentFrame := 0
      currentPeriod := ⟨(s.currentPeriod.val + 1) % 4, Nat.mod_lt _ (by decide)⟩
      scanPosition := 0
      elapsedFrameTime := 0 } := by
  have last : s.currentFrame = 4 := Fin.ext h
  rw [fadv, last, nextFramePeriod_last]

theorem fadv_of_lt {s : State} (h : s.currentFrame.val < 4) :
    fadv s = { s with
      currentFrame := ⟨s.currentFrame.val + 1, by omega⟩
      scanPosition := 0
      elapsedFrameTime := 0 } := by
  rw [fadv, nextFramePeriod_of_lt _ h]

/-! ### What moves the frame/period pair -/

/-- After FIRE no stage of TICK writes the pair (42_dispatcher.md R133 to R137). -/
theorem dispatchTick_framePeriod (s : State) :
    (dispatchTick s).currentFrame = (fireStage s).currentFrame ∧
      (dispatchTick s).currentPeriod = (fireStage s).currentPeriod := by
  rcases dispatchTick_cases s with ⟨i, e, -, h⟩ | ⟨k, -, h⟩ <;> rw [h] <;> exact ⟨rfl, rfl⟩

/-- The commands that start FADV: a TICK that is not halted, with the frame-advance task latched (R121,
42_dispatcher.md R132). -/
abbrev StartsFadv (i : Instr) (s : State) : Prop :=
  i = .tick ∧ s.fault = false ∧ s.latchedTask = some 0

theorem exec_framePeriod_of_startsFadv {i : Instr} {s t : State} (start : StartsFadv i s)
    (h : exec i s = .next t) :
    t.currentFrame = (fadv s).currentFrame ∧ t.currentPeriod = (fadv s).currentPeriod := by
  obtain ⟨rfl, running, latched⟩ := start
  rw [exec_tick, unlessHalted_running _ running] at h
  obtain rfl : dispatchTick s = t := by simpa using h
  have fired : fireStage s = fadv (emit (.fire Config.cbFadv) s) := fireStage_fadv latched
  simpa [fired] using dispatchTick_framePeriod s

theorem exec_framePeriod_of_not_startsFadv {i : Instr} {s t : State} (noStart : ¬ StartsFadv i s)
    (h : exec i s = .next t) :
    t.currentFrame = s.currentFrame ∧ t.currentPeriod = s.currentPeriod := by
  cases effect_of_exec h with
  | ticked running is =>
    have notLatched : s.latchedTask ≠ some Config.cbFadv := fun hl => noStart ⟨is, running, hl⟩
    obtain ⟨frame, period⟩ := dispatchTick_framePeriod s
    obtain ⟨fireFrame, firePeriod⟩ :=
      Prod.mk.inj ((fireStage_framePeriod s).trans (if_neg notLatched))
    exact ⟨frame.trans fireFrame, period.trans firePeriod⟩
  | refused | answered | started | dropped | registered | updated | published => exact ⟨rfl, rfl⟩

/-- Settles O19: FADV by whether the frame is the last, and the effect of each command on the pair by
whether it starts FADV. -/
theorem frameAdvanceTransitionAndItsOnlyStart :
    Obligations.FrameAdvanceTransitionAndItsOnlyStart := by
  refine ⟨fun s => ⟨fadv_of_last, fadv_of_lt⟩, fun i s t h => ?_⟩
  split
  next start => exact exec_framePeriod_of_startsFadv start h
  next noStart => exact exec_framePeriod_of_not_startsFadv noStart h

/-! ### The match predicate on the word's two masks (R120) -/

theorem matchesNow_eq_masks (s : State) (w : ScheduleWord) :
    matchesNow s w =
      ((frameMask w).getLsbD s.currentFrame.val && (periodMask w).getLsbD s.currentPeriod.val) := by
  rw [getLsbD_frameMask, getLsbD_periodMask, decide_eq_true s.currentFrame.isLt,
    decide_eq_true s.currentPeriod.isLt, Bool.true_and, Bool.true_and, matchesNow, matchesIn]

/-- Settles O18: the match is the bits of the two masks, so it sees nothing else of the word. -/
theorem matchTestsOneFrameAndOnePeriodBit : Obligations.MatchTestsOneFrameAndOnePeriodBit := by
  refine ⟨fun s w => ⟨rfl, matchesNow_eq_masks s w, fun noFrame => ?_, fun noPeriod => ?_,
    matchesNow_allOnes s, fun w' sameFrames samePeriods => ?_⟩, by decide, by decide⟩
  · simp [matchesNow_eq_masks, noFrame]
  · simp [matchesNow_eq_masks, noPeriod]
  · rw [matchesNow_eq_masks, matchesNow_eq_masks, sameFrames, samePeriods]

end Sys2Proof.Machine

/-! PROOFS. The obligations of 43_registry_publish.md on the setters SETT, SETF and SETP: their
encodings, their refusals and the one word they re-encode (R162 to R165). -/

namespace Sys2Proof.Machine

open Sys2Proof

/-! ### The words of the format FS (30_encoding.md R77) -/

/-- An FS word: the handle in `k`, the value in `a0`, every field between them zero. -/
theorem fsWord_eq_packWord (op : BitVec 4) (h : TaskHandle) (v : Operand) :
    op ++ 0#4 ++ h ++ 0#32 ++ v = packWord op h 0#16 0#16 v := by
  have zeros (x : BitVec 16) : (x ++ 0#16 ++ 0#16).toNat = (x ++ 0#32).toNat := by
    simp only [BitVec.toNat_append, BitVec.toNat_ofNat, Nat.zero_mod, Nat.or_zero,
      ← Nat.shiftLeft_add]
  rw [← BitVec.eq_of_toNat_eq (zeros _)]
  rfl

theorem checkFormat_fs (op : BitVec 4) (h : TaskHandle) (v : Operand) (i : Instr) :
    checkFormat .fs (packWord op h 0#16 0#16 v) i = .ok i := by
  refine checkFormat_packWord _ _ _ _ _ _ _ fun j hj asked => ?_
  have unused : 56 ≤ j ∨ 16 ≤ j ∧ j < 48 := by simpa [Format.asksZero] using asked
  rw [getLsbD_packWord]
  rcases unused with reserved | ⟨low, high⟩
  · simp [hj, show ¬ j < 16 by omega, show ¬ j < 32 by omega, show ¬ j < 48 by omega,
      show ¬ j < 56 by omega]
  · simp [high, show ¬ j < 16 by omega]

/-- The word of a setter decodes to it, for every handle and value (R162 to R164). -/
theorem decode_encode_of_setterEnc {i : Instr} (setter : (setterEnc i).isSome) :
    decode (encode i) = .ok i := by
  cases i with
  | sett h v | setf h v | setp h v => simp [encode, decode, checkFormat_fs]
  | init | reg | pub | tick | enct | encf | encp | dect | decf | decp => simp [setterEnc] at setter

/-- The FS word with a setter's opcode and operands decodes to that setter. -/
theorem decode_fsWord {op : BitVec 4} {h : TaskHandle} {v : Operand} {i : Instr}
    (setter : (setterEnc i).isSome) (word : encode i = packWord op h 0#16 0#16 v) :
    decode (op ++ 0#4 ++ h ++ 0#32 ++ v) = .ok i := by
  rw [fsWord_eq_packWord, ← word, decode_encode_of_setterEnc setter]

/-! ### What an accepted setter does (R162 to R165) -/

theorem setField_of_no_carrier {h : TaskHandle} {s : State}
    (unknown : ∀ j e, stgRead s j = some e → e.handle ≠ h)
    (f : ScheduleWord → Operand → ScheduleWord) (v : Operand) :
    setField f h v s = refuse .badHandle s := by
  rw [setField, (lookupHandle_eq_none_iff s h).2 unknown]

/-- The first slot that carries the handle is the one whose word is re-encoded. -/
theorem setField_of_first_carrier {h : TaskHandle} {s : State} {j : Nat} {e : StagingEntry}
    (held : stgRead s j = some e) (carries : e.handle = h)
    (first : ∀ j' e', j' < j → stgRead s j' = some e' → e'.handle ≠ h)
    (f : ScheduleWord → Operand → ScheduleWord) (v : Operand) :
    setField f h v s = respond (.ok 0) (stgWrite j { e with word := f e.word v } s) := by
  have found : lookupHandle s h = some j :=
    (lookupHandle_eq_some_iff s h j).2 ⟨⟨e, held, carries⟩, first⟩
  simp only [setField, found, setEntryWord, held]

/-- The three setters are one shape behind the two checks, told apart by their encode alone. -/
theorem exec_of_setterEnc {i : Instr} {f : ScheduleWord → Operand → ScheduleWord} {h : TaskHandle}
    {v : Operand} (setter : setterEnc i = some (f, h, v)) (s : State) :
    exec i s = .next (unlessHalted (afterInit (setField f h v)) s) := by
  cases i with
  | sett | setf | setp =>
    cases setter
    rfl
  | init | reg | pub | tick | enct | encf | encp | dect | decf | decp => simp [setterEnc] at setter

/-- The masked forms of the three re-encodings are the encodes of the codec (R101 to R103). -/
theorem setterEnc_of_masked_form {i : Instr} {h : TaskHandle} {v : Operand}
    {enc : ScheduleWord → ScheduleWord}
    (form : i = .sett h v ∧ enc = (fun w => (w &&& 0xFF80#16) ||| v) ∨
      i = .setf h v ∧ enc = (fun w => (w &&& 0xF07F#16) ||| (v <<< 7)) ∨
      i = .setp h v ∧ enc = (fun w => (w &&& 0x0FFF#16) ||| (v <<< 12))) :
    ∃ f, setterEnc i = some (f, h, v) ∧ ∀ w, f w v = enc w := by
  rcases form with ⟨rfl, rfl⟩ | ⟨rfl, rfl⟩ | ⟨rfl, rfl⟩
  · exact ⟨encTime, rfl, fun w => encTime_eq w v⟩
  · exact ⟨encFrame, rfl, fun w => encFrame_eq w v⟩
  · exact ⟨encPeriod, rfl, fun w => encPeriod_eq w v⟩

/-- Settles O36: each word is the FS word of its setter, and the setters' common shape is taken apart by
its checks in their order, then by whether a slot carries the handle. -/
theorem settersReencodeOneStagedWord : Obligations.SettersReencodeOneStagedWord := by
  intro h v s
  refine ⟨⟨decode_fsWord (op := 0x3) rfl rfl, decode_fsWord (op := 0x4) rfl rfl,
    decode_fsWord (op := 0x5) rfl rfl⟩, fun i enc form => ?_⟩
  obtain ⟨f, setter, hf⟩ := setterEnc_of_masked_form form
  rw [exec_of_setterEnc setter]
  refine ⟨fun halted => ?_, fun running unready => ?_, fun running ready unknown => ?_,
    fun j e running ready held carries first => ?_⟩
  · rw [unlessHalted_halted _ halted]
    rfl
  · rw [unlessHalted_running _ running, afterInit_unstarted _ unready]
    rfl
  · rw [unlessHalted_running _ running, afterInit_started _ ready, setField_of_no_carrier unknown]
    rfl
  · rw [unlessHalted_running _ running, afterInit_started _ ready,
      setField_of_first_carrier held carries first, hf]
    rfl

end Sys2Proof.Machine

/-! PROOFS. The obligations of 60_exceptions.md: the registration that finds no empty slot (R192). -/

namespace Sys2Proof.Machine

open Sys2Proof

theorem exec_reg (t f p : Operand) (cb : CallbackId) (s : State) :
    exec (.reg t f p cb) s = .next (unlessHalted (afterInit (register t f p cb)) s) := rfl

theorem register_of_full {s : State} (full : ∀ j, j < s.staging.length → stgRead s j ≠ none)
    (t f p : Operand) (cb : CallbackId) : register t f p cb s = respond .none s := by
  rw [register, (firstEmptySlot_eq_none_iff s).2 full]

/-- Settles O35: both checks of REG pass, and the scan for an empty slot finds none. -/
theorem registerWhenFullIsANoOp : Obligations.RegisterWhenFullIsANoOp := by
  intro s t f p cb running ready full
  rw [exec_reg, unlessHalted_running _ running, afterInit_started _ ready, register_of_full full]
  rfl

end Sys2Proof.Machine

/-! PROOFS. The obligations of 30_encoding.md on command words (R75 to R79): decode and encode are
inverse, and the decoder accepts the legal words. -/

namespace Sys2Proof

open Sys2Proof.Machine

/-! ### Every command is read back from its word -/

theorem checkFormat_fr (op : BitVec 4) (k : BitVec 8) (a2 a1 a0 : Operand) (i : Instr) :
    checkFormat .fr (packWord op k a2 a1 a0) i = .ok i := by
  refine checkFormat_packWord _ _ _ _ _ _ _ fun j hj asked => ?_
  have reserved : 56 ≤ j := by simpa [Format.asksZero] using asked
  simp [getLsbD_packWord, hj, show ¬ j < 16 by omega, show ¬ j < 32 by omega,
    show ¬ j < 48 by omega, show ¬ j < 56 by omega]

/-- Settles O2: one case per command, by the format of its word. -/
theorem decodeOfEncodeIsTheCommand : Obligations.DecodeOfEncodeIsTheCommand := by
  intro i
  cases i with
  | init | pub | tick => rfl
  | reg t f p cb => simp [encode, decode, checkFormat_fr]
  | sett | setf | setp => exact decode_encode_of_setterEnc rfl
  | enct | encf | encp | dect | decf | decp => exact decode_encode_of_isCodec _ rfl

/-! ### A format's mask, field by field -/

theorem extractLsb'_eq_zero_iff (c : CommandWord) (lo len : Nat) :
    c.extractLsb' lo len = 0 ↔ ∀ n, lo ≤ n → n < lo + len → c.getLsbD n = false := by
  constructor
  · intro zero n above below
    have bit := BitVec.getLsbD_extractLsb' lo len c (n - lo)
    simpa [zero, show n - lo < len by omega, show lo + (n - lo) = n by omega] using bit.symm
  · intro zero
    refine BitVec.eq_of_getLsbD_eq fun n hn => ?_
    simp [zero (lo + n) (by omega) (by omega)]

/-- The fields a format does not use, the reserved one among them, are zero (R77, R79). -/
def Format.UnusedZero (f : Format) (c : CommandWord) : Prop :=
  rsvField c = 0 ∧
  match f with
  | .f0 => kField c = 0 ∧ a2Field c = 0 ∧ a1Field c = 0 ∧ a0Field c = 0
  | .fr => True
  | .fs => a2Field c = 0 ∧ a1Field c = 0
  | .fe => kField c = 0 ∧ a2Field c = 0
  | .fd => kField c = 0 ∧ a2Field c = 0 ∧ a1Field c = 0

theorem mask_eq_match_iff_unusedZero (f : Format) (c : CommandWord) :
    c &&& f.mask = matchValue (opField c) ↔ f.UnusedZero c := by
  rw [mask_eq_match_iff]
  cases f <;>
    simp only [Format.UnusedZero, rsvField, kField, a2Field, a1Field, a0Field, extractLsb'_eq_zero_iff,
      Format.asksZero, decide_eq_true_eq, Bool.or_eq_true, Bool.and_eq_true, and_true] <;>
    grind

theorem checkFormat_accepts_iff (f : Format) (c : CommandWord) (i : Instr) :
    (∃ j, checkFormat f c i = .ok j) ↔ f.UnusedZero c := by
  rw [← mask_eq_match_iff_unusedZero, checkFormat]
  split
  next passes => simp [passes]
  next fails => split <;> simp [fails]

/-! ### Every accepted word is the word of its command -/

/-- A word without reserved bits is made of its fields (R75). -/
theorem packWord_fields {c : CommandWord} (rsv : rsvField c = 0) :
    packWord (opField c) (kField c) (a2Field c) (a1Field c) (a0Field c) = c := by
  refine BitVec.eq_of_getLsbD_eq fun n hn => ?_
  have reserved : ∀ n, 56 ≤ n → n < 60 → c.getLsbD n = false :=
    (extractLsb'_eq_zero_iff c 56 4).1 rsv
  simp only [getLsbD_packWord, opField, kField, a2Field, a1Field, a0Field,
    BitVec.getLsbD_extractLsb']
  grind

/-- The word that carries, of the fields of `c`, those the format uses, under the opcode `n`. -/
def Format.word (f : Format) (n : Nat) (c : CommandWord) : CommandWord :=
  match f with
  | .f0 => packWord (BitVec.ofNat 4 n) 0 0 0 0
  | .fr => packWord (BitVec.ofNat 4 n) (kField c) (a2Field c) (a1Field c) (a0Field c)
  | .fs => packWord (BitVec.ofNat 4 n) (kField c) 0 0 (a0Field c)
  | .fe => packWord (BitVec.ofNat 4 n) 0 0 (a1Field c) (a0Field c)
  | .fd => packWord (BitVec.ofNat 4 n) 0 0 0 (a0Field c)

/-- A word accepted for a format is the one its used fields make. -/
theorem checkFormat_ok_word {f : Format} {c : CommandWord} {i j : Instr} {n : Nat}
    (op : (opField c).toNat = n) (h : checkFormat f c i = .ok j) : i = j ∧ f.word n c = c := by
  refine ⟨(checkFormat_ok h).1, ?_⟩
  obtain ⟨rsv, unused⟩ := (checkFormat_accepts_iff f c i).1 ⟨j, h⟩
  have word := packWord_fields rsv
  rw [show opField c = BitVec.ofNat 4 n by rw [← op, BitVec.ofNat_toNat, BitVec.setWidth_eq]] at word
  cases f <;> simp_all [Format.word]

/-- Settles O3: each row of the opcode map checks one format, and a word that passes is made of the
operands the row takes. -/
theorem encodeOfDecodeIsTheWord : Obligations.EncodeOfDecodeIsTheWord := by
  intro c i h
  unfold decode at h
  split at h
  case h_14 => simp at h
  all_goals
    obtain ⟨rfl, word⟩ := checkFormat_ok_word ‹_› h
    exact word

/-! ### The field table accepts the same words -/

theorem toNat_opField (c : CommandWord) : (opField c).toNat = CommandWord.opNumber c := by
  have := c.isLt
  simp only [opField, CommandWord.opNumber, BitVec.extractLsb'_toNat, Nat.shiftRight_eq_div_pow]
  omega

theorem extractLsb'_eq_zero_iff_toNat (c : CommandWord) (lo len : Nat) :
    c.extractLsb' lo len = 0 ↔ c.toNat / 2 ^ lo % 2 ^ len = 0 := by
  rw [← BitVec.toNat_inj, BitVec.extractLsb'_toNat, Nat.shiftRight_eq_div_pow]
  rfl

/-- The word check of the field table on the decoder's fields (R75, R79). -/
theorem wellFormed_iff (c : CommandWord) :
    CommandWord.wellFormed c = true ↔
      (1 ≤ (opField c).toNat ∧ (opField c).toNat ≤ 13) ∧ rsvField c = 0 ∧
      (2 ≤ (opField c).toNat ∧ (opField c).toNat ≤ 5 ∨ kField c = 0) ∧
      ((opField c).toNat = 2 ∨ a2Field c = 0) ∧
      ((opField c).toNat = 2 ∨ 8 ≤ (opField c).toNat ∧ (opField c).toNat ≤ 10 ∨ a1Field c = 0) ∧
      (¬ ((opField c).toNat = 1 ∨ (opField c).toNat = 6 ∨ (opField c).toNat = 7) ∨
        a0Field c = 0) := by
  simp only [CommandWord.wellFormed, CommandWord.opAssigned, CommandWord.rsvZero,
    CommandWord.kZeroUnlessUsed, CommandWord.a2ZeroUnlessUsed, CommandWord.a1ZeroUnlessUsed,
    CommandWord.a0ZeroUnlessUsed, toNat_opField, rsvField, kField, a2Field, a1Field, a0Field,
    extractLsb'_eq_zero_iff_toNat, Bool.and_eq_true, Bool.or_eq_true, Bool.not_eq_true',
    decide_eq_true_eq, decide_eq_false_iff_not, Nat.pow_zero, Nat.div_one, and_assoc, or_assoc]

/-- Settles O4: opcode by opcode, the fields the row's format leaves unused are the ones the field table
asks to be zero. -/
theorem decodeAcceptsExactlyTheLegalWords : Obligations.DecodeAcceptsExactlyTheLegalWords := by
  intro c
  rw [wellFormed_iff]
  unfold decode
  split
  case h_14 =>
    simp only [reduceCtorEq, exists_false, false_iff]
    grind
  all_goals
    next op => simp [op, checkFormat_accepts_iff, Format.UnusedZero]

/-- Settles O1: the decoder run on each of the nine words. -/
theorem sampleWordsDecodeAsListed : Obligations.SampleWordsDecodeAsListed := by
  unfold Obligations.SampleWordsDecodeAsListed
  decide

/-! ### The response word (R78) -/

theorem toNat_statusWord (status : BitVec 2) (value : BitVec 16) :
    (status ++ value).toNat = status.toNat * 2 ^ 16 + value.toNat := by
  rw [BitVec.toNat_append, ← Nat.shiftLeft_add_eq_or_of_lt value.isLt, Nat.shiftLeft_eq]

/-- Settles O5: the status stands above the 16 bits of the value. -/
theorem responseWordsCarryStatusAndValue : Obligations.ResponseWordsCarryStatusAndValue := by
  refine ⟨fun v => ?_, by decide, by decide, by decide, by decide, by decide, fun code => ?_⟩
  · simp [responseWord, toNat_statusWord]
  · have fits : code.toNat % 2 ^ 16 = code.toNat :=
      Nat.mod_eq_of_lt (Nat.lt_trans code.isLt (by decide))
    rw [responseWord, toNat_statusWord, BitVec.toNat_setWidth, fits]
    rfl

end Sys2Proof

/-! PROOFS. The obligations of 43_registry_publish.md on INIT, REG, PUB, the sort and the lookup (R160 to
R167), and of 20_memory.md on the published table (R55). -/

namespace Sys2Proof.Machine

open Sys2Proof

/-! ### INIT and REG (R160, R161) -/

theorem exec_init (s : State) : exec .init s = .next (unlessHalted (beforeInit initTables) s) := rfl

/-- Settles O33: both checks of INIT pass, and the entry it stages is the frame-advance task's. -/
theorem initRegistersTheFrameAdvanceTask : Obligations.InitRegistersTheFrameAdvanceTask := by
  intro s running first
  rw [exec_init, unlessHalted_running _ running, beforeInit_unstarted _ first, initTables_eq,
    frameAdvanceEntry_eq]

theorem register_of_free {s : State} {i : Nat} (free : firstEmptySlot s = some i)
    (t f p : Operand) (cb : CallbackId) :
    register t f p cb s = respond (.ok (handleValue s.nextHandle))
      { stgWrite i ⟨s.nextHandle, registerWord t f p, cb⟩ s with
        nextHandle := s.nextHandle + 1 } := by
  simp only [register, free]

theorem handleValue_eq (h : TaskHandle) : handleValue h = BitVec.ofNat 16 h.toNat :=
  (BitVec.ofNat_toNat 16 h).symm

/-- Settles O34: both checks of REG pass, and the scan for an empty slot stops at the given one. -/
theorem registerFillsTheFirstEmptySlot : Obligations.RegisterFillsTheFirstEmptySlot := by
  intro s t f p cb i running ready inside empty before
  have free : firstEmptySlot s = some i :=
    (firstEmptySlot_eq_some_iff s i).2 ⟨inside, empty, before⟩
  rw [exec_reg, unlessHalted_running _ running, afterInit_started _ ready, register_of_free free,
    registerWord_eq, handleValue_eq]
  rfl

/-! ### What the storing commands leave unchanged (R161 to R164) -/

/-- A write to one staging slot leaves every other slot. -/
theorem sameStagingBut_stgWrite (j : Nat) (e : StagingEntry) (s : State) :
    SameStagingBut (some j) s (stgWrite j e s) :=
  ⟨by simp, fun i other => stgRead_stgWrite_ne j i e s (by simpa using other)⟩

theorem SameStagingBut.refl (stored : Option Nat) (s : State) : SameStagingBut stored s s :=
  ⟨rfl, fun _ _ => rfl⟩

theorem setterEnc_handle_of_setter {h : TaskHandle} {v : Operand} {i : Instr}
    (setter : i = .sett h v ∨ i = .setf h v ∨ i = .setp h v) :
    ∃ enc, setterEnc i = some (enc, h, v) := by
  rcases setter with rfl | rfl | rfl <;> exact ⟨_, rfl⟩

/-- REG and the setters write the staging table, the next handle and the trace only. -/
theorem stagingWrite_keeps_rest {i : Instr} {s t : State} (hi : StagingWrite i)
    (h : exec i s = .next t) :
    SameActive s t ∧ SameCursor s t ∧ SameFault s t ∧ SameEnvironment s t ∧
      t.initialized = s.initialized ∧ t.tickMask = s.tickMask ∧ t.deadlineLast = s.deadlineLast := by
  obtain ⟨st, nh, tr, rfl⟩ := exec_stagingWrite_frame hi h
  exact ⟨⟨rfl, fun _ => rfl⟩, ⟨rfl, rfl, rfl, rfl, rfl⟩, ⟨rfl, rfl⟩, ⟨rfl, rfl⟩, rfl, rfl, rfl⟩

/-- A setter stores to the slot its lookup gives, and takes no handle. -/
theorem exec_setter_staging {i : Instr} {enc : ScheduleWord → Operand → ScheduleWord}
    {h : TaskHandle} {v : Operand} {s t : State} (setter : setterEnc i = some (enc, h, v))
    (next : exec i s = .next t) :
    SameStagingBut (lookupHandle s h) s t ∧ t.nextHandle = s.nextHandle := by
  cases effect_of_exec next with
  | refused | answered => exact ⟨.refl _ s, rfl⟩
  | updated enc' h' v' j e running ready is found =>
    obtain ⟨-, rfl, -⟩ : enc' = enc ∧ h' = h ∧ v' = v := by simpa [is] using setter
    rw [found]
    exact ⟨sameStagingBut_stgWrite j _ s, rfl⟩
  | started running first is => simp [is, setterEnc] at setter
  | dropped running ready is =>
    obtain ⟨_, _, _, _, rfl⟩ := is
    simp [setterEnc] at setter
  | registered _ _ _ _ _ running ready is => simp [is, setterEnc] at setter
  | published running ready is => simp [is, setterEnc] at setter
  | ticked running is => simp [is, setterEnc] at setter

/-- REG stores to the first empty slot. -/
theorem exec_reg_staging {tm f p : Operand} {cb : CallbackId} {s t : State}
    (next : exec (.reg tm f p cb) s = .next t) : SameStagingBut (firstEmptySlot s) s t := by
  cases effect_of_exec next with
  | refused | answered | dropped => exact .refl _ s
  | registered _ _ _ _ j running ready is free =>
    rw [free]
    exact sameStagingBut_stgWrite j _ s
  | updated _ _ _ _ _ running ready is => simp [setterEnc] at is
  | started running first is => simp at is
  | published running ready is => simp at is
  | ticked running is => simp at is

/-- Settles O37: the staging table by the command's own slot, everything else by the common frame of the
four commands. -/
theorem stagingWritesLeaveEverythingElse : Obligations.StagingWritesLeaveEverythingElse := by
  refine ⟨fun h v i s t setter next => ?_, fun tm f p cb s t next => ?_⟩
  · obtain ⟨enc, he⟩ := setterEnc_handle_of_setter setter
    obtain ⟨staging, handle⟩ := exec_setter_staging he next
    exact ⟨staging, handle, stagingWrite_keeps_rest (.inr ⟨h, v, setter⟩) next⟩
  · exact ⟨exec_reg_staging next, stagingWrite_keeps_rest (.inl ⟨tm, f, p, cb, rfl⟩) next⟩

/-! ### PUB and the sort (R166, R167) -/

theorem exec_pub (s : State) : exec .pub s = .next (unlessHalted (afterInit publish) s) := rfl

theorem exec_pub_accepted {s : State} (running : s.fault = false) (ready : s.initialized = true) :
    exec .pub s = .next (publish s) := by
  rw [exec_pub, unlessHalted_running _ running, afterInit_started _ ready]

/-- Settles O38: both checks of PUB pass, and the copy drops the handle. -/
theorem publishSortsThenCopiesTheWholeTable : Obligations.PublishSortsThenCopiesTheWholeTable := by
  intro s running ready
  rw [exec_pub_accepted running ready, publish_eq]
  rfl

/-- Settles O39: the insertion sort is a permutation, ascending and stable. -/
theorem sortIsTheStableAscendingOrder : Obligations.SortIsTheStableAscendingOrder :=
  fun s es tail staged ends =>
    ⟨sortBySlot es, sortStaging_staging_of s es tail staged ends, sortBySlot_perm es,
      sortBySlot_ascending es, sortBySlot_stable es⟩

/-- The sort of a packed table is packed: the same entries in ascending order. -/
theorem sortStaging_packed {s : State} {es : List StagingEntry} {n : Nat}
    (h : s.staging = es.map some ++ List.replicate n none) :
    (sortStaging s).staging = (sortBySlot es).map some ++ List.replicate n none := by
  refine sortStaging_staging_of s es _ h ?_
  cases n with
  | zero => exact .inl rfl
  | succ n => exact .inr ⟨_, List.replicate_succ⟩

theorem validBelow_sortStaging {s : State} {k : Nat} (h : ValidBelow s.staging k) :
    ValidBelow (sortStaging s).staging k := by
  obtain ⟨es, rfl, -, hs⟩ := (validBelow_iff _ _).1 h
  rw [sortStaging_packed hs, ← sortBySlot_length]
  exact validBelow_append _ _

theorem publish_active_validBelow {s : State} {k : Nat} (h : ValidBelow s.staging k) :
    ValidBelow (publish s).active k := by
  rw [publish_eq]
  exact (validBelow_sortStaging h).map dropHandle

/-- Adjacent entries of the published table are adjacent in the sorted list. -/
theorem publish_ascendingSlots {s : State} {k : Nat} (h : ValidBelow s.staging k) :
    AscendingSlots (publish s) := by
  intro i a b ha hb
  obtain ⟨es, -, -, hs⟩ := (validBelow_iff _ _).1 h
  rw [actRead_publish, stgRead_packed (sortStaging_packed hs)] at ha hb
  obtain ⟨x, hx, rfl⟩ := Option.map_eq_some_iff.1 ha
  obtain ⟨y, hy, rfl⟩ := Option.map_eq_some_iff.1 hb
  obtain ⟨hi, rfl⟩ := List.getElem?_eq_some_iff.1 hx
  obtain ⟨hj, rfl⟩ := List.getElem?_eq_some_iff.1 hy
  exact List.pairwise_iff_getElem.1 (sortBySlot_ascending es) i (i + 1) hi hj (Nat.lt_succ_self i)

/-- Settles O40: the sort keeps a packed table packed and makes it ascending, and the copy keeps both. -/
theorem publishedTableIsPackedAndAscending : Obligations.PublishedTableIsPackedAndAscending := by
  intro s t k running ready packed h
  rw [exec_pub_accepted running ready] at h
  obtain rfl : publish s = t := by simpa using h
  exact ⟨publish_active_validBelow packed, publish_ascendingSlots packed⟩

/-! ### The lookup (R165) -/

/-- The staged entries of a state of the invariant, and their handles. -/
theorem StateInv.staged {s : State} (inv : StateInv s) :
    ∃ es : List StagingEntry, es.length = s.nextHandle.toNat ∧
      s.staging = es.map some ++ List.replicate (s.staging.length - es.length) none ∧
      (es.map (fun e => e.handle.toNat)).Perm (List.range s.nextHandle.toNat) := by
  obtain ⟨es, len, -, hs⟩ := (validBelow_iff _ _).1 inv.stagingPacked
  rw [← len] at hs
  exact ⟨es, len, hs, stagedHandles_packed hs ▸ inv.handlesOnce⟩

/-- A handle below `next_handle` is carried by a slot (20_memory.md R54). -/
theorem StateInv.exists_carrier {s : State} (inv : StateInv s) {h : TaskHandle}
    (below : h.toNat < s.nextHandle.toNat) : ∃ j e, stgRead s j = some e ∧ e.handle = h := by
  obtain ⟨es, -, hs, handles⟩ := inv.staged
  obtain ⟨e, he, eq⟩ := List.mem_map.1 (handles.mem_iff.2 (List.mem_range.2 below))
  obtain ⟨j, hj⟩ := List.mem_iff_getElem?.1 he
  exact ⟨j, e, (stgRead_packed hs j).trans hj, BitVec.eq_of_toNat_eq eq⟩

theorem StateInv.handle_lt {s : State} (inv : StateInv s) {j : Nat} {e : StagingEntry}
    (held : stgRead s j = some e) : e.handle.toNat < s.nextHandle.toNat := by
  obtain ⟨es, -, hs, handles⟩ := inv.staged
  rw [stgRead_packed hs] at held
  exact List.mem_range.1 (handles.mem_iff.1
    (List.mem_map_of_mem (List.mem_of_getElem? held)))

/-- No two slots carry one handle (20_memory.md R54). -/
theorem StateInv.carrier_unique {s : State} (inv : StateInv s) {j k : Nat} {e e' : StagingEntry}
    (held : stgRead s j = some e) (held' : stgRead s k = some e') (same : e.handle = e'.handle) :
    j = k := by
  obtain ⟨es, -, hs, handles⟩ := inv.staged
  have once : (es.map fun e => e.handle.toNat).Nodup := handles.nodup_iff.2 List.nodup_range
  rw [stgRead_packed hs] at held held'
  obtain ⟨inside, -⟩ := List.getElem?_eq_some_iff.1 held
  exact (List.getElem?_inj (by simpa using inside) once).1 (by simp [held, held', same])

/-- Settles O41: a registered handle is carried by one slot, which the lookup finds; every carried handle
is below `next_handle`. -/
theorem lookupFindsExactlyTheRegisteredHandles :
    Obligations.LookupFindsExactlyTheRegisteredHandles := by
  intro s h inv
  refine ⟨fun below => ?_, fun above => ?_⟩
  · obtain ⟨j₀, e₀, held₀, carries₀⟩ := inv.exists_carrier below
    rcases found : lookupHandle s h with _ | j
    · exact absurd carries₀ ((lookupHandle_eq_none_iff s h).1 found j₀ e₀ held₀)
    · obtain ⟨⟨e, held, carries⟩, -⟩ := (lookupHandle_eq_some_iff s h j).1 found
      exact ⟨j, e, rfl, held, carries,
        fun j' e' held' carries' => inv.carrier_unique held' held (carries'.trans carries.symm)⟩
  · refine (lookupHandle_eq_none_iff s h).2 fun j e held carries => ?_
    have below := inv.handle_lt held
    rw [carries] at below
    omega

end Sys2Proof.Machine

/-! PROOFS. The invariant of the whole state (20_memory.md R50, R54, R55, 10_state.md R20 to R38): it holds
after reset and every step keeps it. -/

namespace Sys2Proof.Machine

open Sys2Proof

/-! ### After reset (10_state.md R38) -/

/-- Settles O53: field by field, from the reset values. -/
theorem stateInvariantHoldsAtReset : Obligations.StateInvariantHoldsAtReset := fun n =>
  { tables := resetOf_wf n
    scanBound := Nat.zero_le _
    stagingPacked := validBelow_replicate n.val
    handlesOnce := by simp [stagedHandles]
    activePacked := ⟨0, validBelow_replicate n.val⟩
    activeSorted := fun i a b ha => by simp [actRead] at ha
    elapsedEven := rfl
    faultCodeFits := rfl
    unmasked := rfl
    beforeInit := fun _ => ⟨rfl, fun i => getD_replicate_none n.val i⟩
    afterInit := fun h => by simp at h
    latchedFits := by simp
    deadlineFits := rfl }

/-- Events that are no deadline writes leave the last deadline written. -/
theorem lastDeadline_of_silent {tr evs : List Event} (silent : evs.filterMap deadlineStrobe = []) :
    ((tr ++ evs).filterMap deadlineStrobe).getLast? = (tr.filterMap deadlineStrobe).getLast? := by
  rw [List.filterMap_append, silent, List.append_nil]

theorem lastDeadline_of_write {tr evs : List Event} {v : Deadline}
    (write : evs.filterMap deadlineStrobe = [v]) :
    ((tr ++ evs).filterMap deadlineStrobe).getLast? = some v := by
  rw [List.filterMap_append, write, List.getLast?_concat]

/-! ### INIT (43_registry_publish.md R160) -/

/-- The table INIT leaves: the frame-advance task, and no other entry. -/
theorem initTables_staging_packed (s : State) :
    (initTables s).staging =
      [frameAdvanceEntry].map some ++ List.replicate (s.capacity.val - 1) none := by
  rw [initTables_eq]
  obtain ⟨n, size⟩ := Nat.exists_eq_add_of_le' s.capacity.property.1
  simp [size, List.replicate_succ]

theorem StateInv.initTables {s : State} (inv : StateInv s) : StateInv (initTables s) where
  tables := by simp [initTables_eq, Memory.wf]
  scanBound := inv.scanBound
  stagingPacked := by
    rw [initTables_staging_packed]
    exact validBelow_append _ _
  handlesOnce := by
    rw [stagedHandles_packed (initTables_staging_packed s)]
    exact .refl _
  activePacked := ⟨0, validBelow_replicate s.capacity.val⟩
  activeSorted := fun i a b ha => absurd ha (by simp [initTables_eq, actRead])
  elapsedEven := inv.elapsedEven
  faultCodeFits := inv.faultCodeFits
  unmasked := inv.unmasked
  beforeInit := fun h => by simp [initTables_eq] at h
  afterInit := fun _ => by simp [initTables_eq]
  latchedFits := inv.latchedFits
  deadlineFits := (inv.respond (.ok 0)).deadlineFits

/-! ### REG, the setters and the sort: another staging table -/

/-- A staging table of the same size, packed below its next handle and with each handle once, can take
the place of the old one once INIT has been performed. -/
theorem StateInv.withStaging {s : State} (inv : StateInv s) {st : List (Option StagingEntry)}
    {nh : TaskHandle} (size : st.length = s.staging.length) (ready : s.initialized = true)
    (pos : 0 < nh.toNat) {es : List StagingEntry} {n : Nat}
    (packed : st = es.map some ++ List.replicate n none) (len : es.length = nh.toNat)
    (handles : (es.map (fun e => e.handle.toNat)).Perm (List.range nh.toNat)) :
    StateInv { s with staging := st, nextHandle := nh } where
  tables := ⟨inv.tables.1, size.trans inv.tables.2⟩
  scanBound := inv.scanBound
  stagingPacked := by
    change ValidBelow st nh.toNat
    rw [packed, ← len]
    exact validBelow_append _ _
  handlesOnce := by
    rw [stagedHandles_packed packed]
    exact handles
  activePacked := inv.activePacked
  activeSorted := inv.activeSorted
  elapsedEven := inv.elapsedEven
  faultCodeFits := inv.faultCodeFits
  unmasked := inv.unmasked
  beforeInit := fun h => by simp [ready] at h
  afterInit := fun _ => pos
  latchedFits := inv.latchedFits
  deadlineFits := inv.deadlineFits

/-- In a packed table the first empty slot is the one behind the entries. -/
theorem firstEmptySlot_packed {s : State} {es : List StagingEntry} {n j : Nat}
    (hs : s.staging = es.map some ++ List.replicate n none) (free : firstEmptySlot s = some j) :
    j = es.length := by
  obtain ⟨-, empty, before⟩ := (firstEmptySlot_eq_some_iff s j).1 free
  rw [stgRead_packed hs, List.getElem?_eq_none_iff] at empty
  by_contra other
  exact before es.length (by omega) (by rw [stgRead_packed hs]; simp)

/-- REG appends one entry that carries the next handle; the capacity leaves it no room to wrap. -/
theorem StateInv.registered {s : State} (inv : StateInv s) (ready : s.initialized = true) {j : Nat}
    (free : firstEmptySlot s = some j) (w : ScheduleWord) (cb : CallbackId) :
    StateInv { stgWrite j ⟨s.nextHandle, w, cb⟩ s with nextHandle := s.nextHandle + 1 } := by
  obtain ⟨es, len, hs, handles⟩ := inv.staged
  have behind : j = es.length := firstEmptySlot_packed hs free
  have inside : j < s.staging.length := ((firstEmptySlot_eq_some_iff s j).1 free).1
  have succ : (s.nextHandle + 1).toNat = s.nextHandle.toNat + 1 := by
    have fits : s.staging.length ≤ 255 := inv.tables.2 ▸ s.capacity.property.2
    have one : (1 : TaskHandle).toNat = 1 := rfl
    rw [BitVec.toNat_add, one]
    omega
  obtain ⟨n, hn⟩ : ∃ n, s.staging.length - es.length = n + 1 :=
    ⟨s.staging.length - es.length - 1, by omega⟩
  rw [hn] at hs
  refine inv.withStaging (es := es ++ [⟨s.nextHandle, w, cb⟩]) (n := n) (by simp) ready (by omega)
    ?_ (by rw [List.length_append, List.length_singleton, len, succ]) ?_
  · rw [stgWrite_staging, hs, behind, set_packed_next]
  · rw [succ, List.range_succ, List.map_append]
    exact handles.append_right _

/-- Replacing an element by one of the same image leaves the images of a list. -/
theorem map_set_of_image_eq {α β : Type} (f : α → β) {l : List α} {i : Nat} (inside : i < l.length)
    {a : α} (same : f a = f l[i]) : (l.set i a).map f = l.map f := by
  rw [List.map_set, same, ← List.getElem_map f (h := by simpa using inside), List.set_getElem_self]

/-- A setter keeps the handle of the entry whose word it re-encodes. -/
theorem StateInv.updated {s : State} (inv : StateInv s) (ready : s.initialized = true) {j : Nat}
    {e : StagingEntry} (held : stgRead s j = some e) (w : ScheduleWord) :
    StateInv (stgWrite j { e with word := w } s) := by
  obtain ⟨es, len, hs, handles⟩ := inv.staged
  rw [stgRead_packed hs] at held
  obtain ⟨inside, rfl⟩ := List.getElem?_eq_some_iff.1 held
  refine inv.withStaging (es := es.set j { es[j] with word := w })
    (n := s.staging.length - es.length) (by simp) ready (inv.afterInit ready) ?_
    (by simp [len]) ?_
  · conv => lhs; rw [hs]
    exact set_packed es _ _ inside
  · have same : (es.set j { es[j] with word := w }).map (fun e => e.handle.toNat) =
        es.map (fun e => e.handle.toNat) :=
      map_set_of_image_eq _ inside rfl
    rw [same]
    exact handles

/-- The sort only reorders the entries. -/
theorem StateInv.sorted {s : State} (inv : StateInv s) (ready : s.initialized = true) :
    StateInv (sortStaging s) := by
  obtain ⟨es, len, hs, handles⟩ := inv.staged
  exact inv.withStaging (sortStaging_length s) ready (inv.afterInit ready) (sortStaging_packed hs)
    (by simp [len]) (((sortBySlot_perm es).map _).trans handles)

/-! ### PUB (43_registry_publish.md R166) -/

theorem StateInv.publish {s : State} (inv : StateInv s) (ready : s.initialized = true) :
    StateInv (publish s) := by
  have sorted := inv.sorted ready
  have packed := publish_active_validBelow inv.stagingPacked
  have ascending := publish_ascendingSlots inv.stagingPacked
  rw [publish_eq] at packed ascending ⊢
  exact
    { tables := ⟨by simpa [Memory.wf] using sorted.tables.2, sorted.tables.2⟩
      scanBound := inv.scanBound
      stagingPacked := sorted.stagingPacked
      handlesOnce := sorted.handlesOnce
      activePacked := ⟨_, packed⟩
      activeSorted := ascending
      elapsedEven := inv.elapsedEven
      faultCodeFits := inv.faultCodeFits
      unmasked := rfl
      beforeInit := fun h => by simp [ready] at h
      afterInit := inv.afterInit
      latchedFits := inv.latchedFits
      deadlineFits := by rw [lastDeadline_of_silent rfl]; exact inv.deadlineFits }

/-! ### TICK (42_dispatcher.md R132 to R137) -/

theorem filterMap_fire (o : Option CallbackId) :
    (o.map Event.fire).toList.filterMap deadlineStrobe = [] := by
  cases o <;> rfl

theorem StateInv.fireStage {s : State} (inv : StateInv s) : StateInv (fireStage s) where
  tables := by simpa [Memory.wf] using inv.tables
  scanBound := by
    have bound := inv.scanBound
    rw [fireStage_scanPosition, fireStage_capacity]
    split <;> omega
  stagingPacked := by simpa using inv.stagingPacked
  handlesOnce := by simpa [stagedHandles] using inv.handlesOnce
  activePacked := by simpa using inv.activePacked
  activeSorted := fun i a b => by simpa using inv.activeSorted i a b
  elapsedEven := by
    have even := inv.elapsedEven
    rw [fireStage_elapsedFrameTime]
    split
    · rfl
    · exact even
  faultCodeFits := by simpa using inv.faultCodeFits
  unmasked := by simpa using inv.unmasked
  beforeInit := by simpa using inv.beforeInit
  afterInit := by simpa using inv.afterInit
  latchedFits := by simpa using inv.latchedFits
  deadlineFits := by
    rw [fireStage_trace, lastDeadline_of_silent (filterMap_fire _), fireStage_deadlineLast]
    exact inv.deadlineFits

/-- DEADLINE, LATCH and the response, for an entry found inside the table. -/
theorem StateInv.found {s : State} (inv : StateInv s) {i : Nat} (inside : i < s.capacity.val)
    (e : ActiveEntry) :
    StateInv (Machine.respond (.ok 0)
      (latchStage e (deadlineStage e { s with scanPosition := i + 1 }))) where
  tables := inv.tables
  scanBound := inside
  stagingPacked := inv.stagingPacked
  handlesOnce := inv.handlesOnce
  activePacked := inv.activePacked
  activeSorted := inv.activeSorted
  elapsedEven := by simp [doubledSlot_toNat]
  faultCodeFits := inv.faultCodeFits
  unmasked := inv.unmasked
  beforeInit := inv.beforeInit
  afterInit := inv.afterInit
  latchedFits := by simp
  deadlineFits := by
    rw [respond_trace, latchStage_trace, deadlineStage_trace, List.append_assoc,
      lastDeadline_of_write rfl]
    rfl

/-- The fatal fault, for a scan that stopped inside the table or at its end. -/
theorem StateInv.exhausted {s : State} (inv : StateInv s) {k : Nat} (inside : k ≤ s.capacity.val) :
    StateInv (raiseFault Config.scanExhausted { s with scanPosition := k }) where
  tables := inv.tables
  scanBound := inside
  stagingPacked := inv.stagingPacked
  handlesOnce := inv.handlesOnce
  activePacked := inv.activePacked
  activeSorted := inv.activeSorted
  elapsedEven := inv.elapsedEven
  faultCodeFits := rfl
  unmasked := inv.unmasked
  beforeInit := inv.beforeInit
  afterInit := inv.afterInit
  latchedFits := inv.latchedFits
  deadlineFits := by
    rw [raiseFault_trace, List.append_assoc, lastDeadline_of_silent rfl]
    exact inv.deadlineFits

theorem StateInv.dispatchTick {s : State} (inv : StateInv s) : StateInv (dispatchTick s) := by
  have fired := inv.fireStage
  rcases dispatchTick_cases s with ⟨i, e, hscan, h⟩ | ⟨k, hscan, h⟩ <;> rw [h]
  · obtain ⟨-, inside, -⟩ := (scan_found_iff _ i e).1 hscan
    exact fired.found inside e
  · obtain ⟨-, inside, -⟩ := (scan_exhausted_iff _ fired.scanBound k).1 hscan
    exact fired.exhausted inside

/-! ### Every command, every step -/

theorem StateInv.effect {i : Instr} {s t : State} (inv : StateInv s) (h : Effect i s t) :
    StateInv t := by
  cases h with
  | refused | answered | dropped => exact inv.respond _
  | started => exact inv.initTables
  | registered t f p cb j running ready is free => exact (inv.registered ready free _ cb).respond _
  | updated enc h v j e running ready is found held => exact (inv.updated ready held _).respond _
  | published running ready => exact inv.publish ready
  | ticked => exact inv.dispatchTick

theorem refuseIllegal_eq (s : State) :
    refuseIllegal s = refuse (if s.fault then .halted else .illegalEncoding) s := by
  rw [refuseIllegal, unlessHalted]
  split <;> rfl

/-- Settles O54: an input is no command, an illegal word, or a command with one of the effects. -/
theorem stateInvariantIsKeptByEveryStep : Obligations.StateInvariantIsKeptByEveryStep := by
  intro s t inv h
  rcases step_cases h with ⟨-, rfl⟩ | ⟨rest, -, rfl⟩ | ⟨c, rest, err, -, -, rfl⟩ |
    ⟨c, rest, i, -, -, effect⟩
  · exact inv
  · exact (stateInvariantHoldsAtReset _).withPort rest
  · rw [refuseIllegal_eq]
    exact (inv.withPort rest).respond _
  · exact (inv.withPort rest).effect effect

end Sys2Proof.Machine

/-! PROOFS. The sentinel condition (42_dispatcher.md R141, 20_memory.md R55 (c)): INIT and the first PUB
establish it, and every step that does not touch the frame-advance task keeps it. -/

namespace Sys2Proof.Machine

open Sys2Proof

/-! ### INIT and the first PUB -/

theorem initTables_sentinelStaged (s : State) : SentinelStaged (initTables s) := by
  refine ⟨0, ?_, fun i hi => absurd hi (Nat.not_lt_zero i)⟩
  rw [stgRead_packed (initTables_staging_packed s), frameAdvanceEntry_eq]
  rfl

/-- A staged frame-advance task at `j` is published by PUB at or behind every index `a` up to `j`, and
the next scan starts at or before it. -/
theorem publish_sentinelInv {s : State} {a j : Nat} (tables : Memory.wf s)
    (running : s.fault = false) (ready : s.initialized = true)
    (staged : stgRead s j = some ⟨Config.faHandle, 0xFFFF, Config.cbFadv⟩)
    (noHole : ∀ i, i < j → (stgRead s i).isSome = true) (le : a ≤ j)
    (ahead : s.latchedTask = some Config.cbFadv ∨ s.scanPosition ≤ a) :
    SentinelInv (publish s) := by
  obtain ⟨k, hk, inside, act, actBefore, stg, stgBefore⟩ := publish_frameAdvance tables staged noHole
  refine ⟨running, ready, k, k, Nat.le_refl k, inside, act, actBefore, stg, stgBefore, ?_⟩
  exact ahead.imp_right fun hs => Nat.le_trans hs (Nat.le_trans le hk)

/-- Settles O32: INIT stages the task at index 0, and PUB publishes a staged one. -/
theorem firstPublishEstablishesTheSentinel : Obligations.FirstPublishEstablishesTheSentinel := by
  refine ⟨fun s t tables running first h => ?_, fun s t tables running ready staged start h => ?_⟩
  · rw [exec_init, unlessHalted_running _ running, beforeInit_unstarted _ first] at h
    obtain rfl : initTables s = t := by simpa using h
    exact initTables_sentinelStaged s
  · obtain ⟨j, held, noHole⟩ := staged
    rw [exec_pub_accepted running ready] at h
    obtain rfl : publish s = t := by simpa using h
    exact publish_sentinelInv tables running ready held noHole (Nat.zero_le j)
      (start.imp_right Nat.le_of_eq)

/-! ### What does not touch the frame-advance task -/

theorem SentinelInv.respond {s : State} (h : SentinelInv s) (r : Response) :
    SentinelInv (Machine.respond r s) := by
  obtain ⟨running, ready, sentinel⟩ := h
  exact ⟨running, ready, sentinel⟩

theorem SentinelInv.withPort {s : State} (h : SentinelInv s) (p : List PortInput) :
    SentinelInv { s with port := p } := by
  obtain ⟨running, ready, sentinel⟩ := h
  exact ⟨running, ready, sentinel⟩

/-- A staged entry can be written to any slot but the frame-advance task's. -/
theorem SentinelInv.stgWrite {s : State} (h : SentinelInv s) {k : Nat} {x : StagingEntry}
    (other : stgRead s k ≠ some ⟨Config.faHandle, 0xFFFF, Config.cbFadv⟩) :
    SentinelInv (stgWrite k x s) := by
  obtain ⟨running, ready, a, j, le, inside, act, actBefore, stg, stgBefore, ahead⟩ := h
  have apart : k ≠ j := fun eq => other (eq ▸ stg)
  refine ⟨running, ready, a, j, le, inside, act, actBefore, ?_, fun i hi => ?_, ahead⟩
  · rw [stgRead_stgWrite_ne _ _ _ _ apart]
    exact stg
  · by_cases same : k = i
    · subst same
      have valid := stgBefore k hi
      obtain ⟨e, held⟩ := Option.isSome_iff_exists.1 valid
      rw [stgRead_stgWrite_self _ _ _ (lt_length_of_stgRead held)]
      rfl
    · rw [stgRead_stgWrite_ne _ _ _ _ same]
      exact stgBefore i hi

theorem SentinelInv.withNextHandle {s : State} (h : SentinelInv s) (nh : TaskHandle) :
    SentinelInv { s with nextHandle := nh } := by
  obtain ⟨running, ready, sentinel⟩ := h
  exact ⟨running, ready, sentinel⟩

/-- PUB moves the frame-advance task backward or not at all. -/
theorem SentinelInv.publish {s : State} (h : SentinelInv s) (tables : Memory.wf s) :
    SentinelInv (publish s) := by
  obtain ⟨running, ready, a, j, le, -, -, -, stg, stgBefore, ahead⟩ := h
  exact publish_sentinelInv tables running ready stg stgBefore le ahead

/-! ### TICK: the scan stops at the frame-advance task at the latest -/

theorem PassedOver.not_matching {s : State} {i j k : Nat} {e : ActiveEntry}
    (passed : PassedOver s i j) (low : i ≤ k) (high : k < j) (held : actRead s k = some e) :
    matchesNow s e.word = false := by
  obtain ⟨x, hx, noMatch⟩ := passed k low high
  obtain rfl : e = x := by simpa [held] using hx
  exact noMatch

/-- A scan that starts at or before a valid matching entry with no hole before it finds one there or
earlier. -/
theorem scan_found_of_match_ahead {s : State} {a : Nat} {e : ActiveEntry}
    (start : s.scanPosition ≤ a) (inside : a < s.capacity.val) (held : actRead s a = some e)
    (matching : matchesNow s e.word = true) (before : ∀ i, i < a → (actRead s i).isSome = true) :
    ∃ i e', scan s = .found i e' ∧ i ≤ a := by
  rcases hs : scan s with ⟨i, e'⟩ | k
  · obtain ⟨-, -, -, -, passed⟩ := (scan_found_iff s i e').1 hs
    refine ⟨i, e', rfl, Nat.le_of_not_lt fun beyond => ?_⟩
    simp [passed.not_matching start beyond held] at matching
  · obtain ⟨-, le, stop, passed⟩ := (scan_exhausted_iff s (by omega) k).1 hs
    rcases Nat.lt_trichotomy a k with beyond | rfl | earlier
    · simp [passed.not_matching start beyond held] at matching
    · rcases stop with rfl | empty
      · omega
      · simp [held] at empty
    · rcases stop with rfl | empty
      · omega
      · simpa [empty] using before k earlier

/-- The frame-advance task found is latched, an entry found before it leaves it ahead. -/
theorem SentinelInv.dispatchTick {s : State} (h : SentinelInv s) : SentinelInv (dispatchTick s) := by
  obtain ⟨running, ready, a, j, le, inside, act, actBefore, stg, stgBefore, ahead⟩ := h
  have start : (fireStage s).scanPosition ≤ a := by
    rw [fireStage_scanPosition]
    split
    next => exact Nat.zero_le a
    next notLatched => exact ahead.resolve_left notLatched
  obtain ⟨i, e, found, hi⟩ := scan_found_of_match_ahead start (by simpa using inside)
    (by simpa using act) (matchesNow_allOnes _) (by simpa using actBefore)
  obtain ⟨-, -, held, -⟩ := (scan_found_iff _ i e).1 found
  rw [actRead_fireStage] at held
  obtain ⟨hact, hstg, -, hinit, -, hcap, -⟩ := dispatchTick_frame s
  refine ⟨?_, hinit.trans ready, a, j, le, hcap ▸ inside, ?_, ?_, ?_, ?_, ?_⟩
  · rw [dispatchTick_found found]
    simpa using running
  · rw [actRead_congr hact]
    exact act
  · intro n hn
    rw [actRead_congr hact]
    exact actBefore n hn
  · rw [stgRead_congr hstg]
    exact stg
  · intro n hn
    rw [stgRead_congr hstg]
    exact stgBefore n hn
  · rw [dispatchTick_found found]
    rcases Nat.eq_or_lt_of_le hi with rfl | earlier
    · obtain rfl : (⟨0xFFFF, Config.cbFadv⟩ : ActiveEntry) = e := by simpa [act] using held
      exact .inl rfl
    · exact .inr earlier

/-! ### Every command, every step -/

/-- A setter that keeps the sentinel condition is not on handle 0. -/
theorem handle_ne_of_keepsSentinel {c : CommandWord} {i : Instr} (decoded : decode c = .ok i)
    (keeps : keepsSentinel (.command c) = true) {enc : ScheduleWord → Operand → ScheduleWord}
    {h : TaskHandle} {v : Operand} (setter : setterEnc i = some (enc, h, v)) :
    h ≠ Config.faHandle := by
  cases i with
  | sett | setf | setp =>
    cases setter
    simpa [keepsSentinel, decoded] using keeps
  | init | reg | pub | tick | enct | encf | encp | dect | decf | decp => simp [setterEnc] at setter

theorem SentinelInv.effect {i : Instr} {s t : State} (sentinel : SentinelInv s) (inv : StateInv s)
    (otherHandle : ∀ enc h v, setterEnc i = some (enc, h, v) → h ≠ Config.faHandle)
    (h : Effect i s t) : SentinelInv t := by
  cases h with
  | refused | answered | dropped => exact sentinel.respond _
  | started running first => exact absurd sentinel.started (by simp [first])
  | registered t f p cb j running ready is free =>
    obtain ⟨-, empty, -⟩ := (firstEmptySlot_eq_some_iff s j).1 free
    exact ((sentinel.stgWrite (by simp [empty])).withNextHandle _).respond _
  | updated enc h v j e running ready is found held carries =>
    have other := otherHandle enc h v is
    refine (sentinel.stgWrite fun hfa => ?_).respond _
    rw [held] at hfa
    cases hfa
    exact other carries.symm
  | published => exact sentinel.publish inv.tables
  | ticked => exact sentinel.dispatchTick

/-- Settles O31: the reset input is excluded; an illegal word adds a response; every effect of a command
that is no setter on handle 0 keeps the condition. -/
theorem sentinelConditionIsKeptSoNoTickFaults :
    Obligations.SentinelConditionIsKeptSoNoTickFaults := by
  intro s t inv sentinel h keeps
  rcases step_cases h with ⟨-, rfl⟩ | ⟨rest, port, rfl⟩ | ⟨c, rest, err, -, -, rfl⟩ |
    ⟨c, rest, i, port, decoded, effect⟩
  · exact sentinel
  · exact absurd (keeps _ _ port) (by simp [keepsSentinel])
  · rw [refuseIllegal_eq]
    exact (sentinel.withPort rest).respond _
  · exact (sentinel.withPort rest).effect (inv.withPort rest)
      (fun _ _ _ => handle_ne_of_keepsSentinel decoded (keeps _ _ port)) effect

end Sys2Proof.Machine

/-! PROOFS. The obligations of 40_codec.md on the encoded word (R107 to R109), and the cycle of the frame
advance (41_frame_period.md R122). -/

namespace Sys2Proof.Machine

open Sys2Proof

/-! ### The round trip (R107) -/

theorem encTime_readBack (w : ScheduleWord) {v : Operand} (range : v.toNat ≤ 127) :
    decTime (encTime w v) = v ∧ encTime w v &&& 0xFF80#16 = w &&& 0xFF80#16 := by
  have high : ∀ i, 7 ≤ i → v.getLsbD i = false := fun i => getLsbD_of_lt v 7 i (by omega)
  constructor <;> refine BitVec.eq_of_getLsbD_eq fun i hi => ?_
  · rw [decTime, BitVec.getLsbD_setWidth, getLsbD_timeSlot, getLsbD_encTime _ _ _ hi]
    by_cases h : i < 7
    · simp [h, hi, show ¬ 7 ≤ i by omega]
    · simp [h, high i (by omega)]
  · rw [BitVec.getLsbD_and, BitVec.getLsbD_and, getLsbD_encTime _ _ _ hi, getLsbD_timeKeep i hi]
    by_cases h : 7 ≤ i
    · simp [h, high i h]
    · simp [h]

theorem encFrame_readBack (w : ScheduleWord) {v : Operand} (range : v.toNat ≤ 31) :
    decFrame (encFrame w v) = v ∧ encFrame w v &&& 0xF07F#16 = w &&& 0xF07F#16 := by
  have high : ∀ i, 5 ≤ i → v.getLsbD i = false := fun i => getLsbD_of_lt v 5 i (by omega)
  constructor <;> refine BitVec.eq_of_getLsbD_eq fun i hi => ?_
  · rw [decFrame, BitVec.getLsbD_setWidth, getLsbD_frameMask]
    by_cases h : i < 5
    · rw [getLsbD_encFrame _ _ _ (by omega)]
      simp [h, hi, show ¬ 7 + i < 7 by omega, show ¬ 12 ≤ 7 + i by omega]
    · simp [h, high i (by omega)]
  · rw [BitVec.getLsbD_and, BitVec.getLsbD_and, getLsbD_encFrame _ _ _ hi, getLsbD_frameKeep i hi]
    by_cases low : i < 7
    · simp [low]
    · by_cases h : 12 ≤ i
      · simp [low, h, high (i - 7) (by omega)]
      · simp [low, h]

theorem encPeriod_readBack (w : ScheduleWord) {v : Operand} (range : v.toNat ≤ 15) :
    decPeriod (encPeriod w v) = v ∧ encPeriod w v &&& 0x0FFF#16 = w &&& 0x0FFF#16 := by
  have high : ∀ i, 4 ≤ i → v.getLsbD i = false := fun i => getLsbD_of_lt v 4 i (by omega)
  constructor <;> refine BitVec.eq_of_getLsbD_eq fun i hi => ?_
  · rw [decPeriod, BitVec.getLsbD_setWidth, getLsbD_periodMask]
    by_cases h : i < 4
    · rw [getLsbD_encPeriod _ _ _ (by omega)]
      simp [h, hi]
    · simp [h, high i (by omega)]
  · rw [BitVec.getLsbD_and, BitVec.getLsbD_and, getLsbD_encPeriod _ _ _ hi, getLsbD_periodKeep i hi]
    by_cases h : i < 12
    · simp [h]
    · simp [h]

/-- Settles O15: field by field, bit by bit. -/
theorem inRangeEncodeIsReadBackAndKeepsTheOtherFields :
    Obligations.InRangeEncodeIsReadBackAndKeepsTheOtherFields :=
  fun w _ => ⟨encTime_readBack w, encFrame_readBack w, encPeriod_readBack w⟩

/-! ### The spill (R108) -/

theorem encTime_spill (w : ScheduleWord) (v : Operand) :
    encTime w v = encTime w (v &&& 0x7F#16) ||| (v &&& 0xFF80#16) := by
  refine BitVec.eq_of_getLsbD_eq fun i hi => ?_
  rw [BitVec.getLsbD_or, getLsbD_encTime _ _ _ hi, getLsbD_encTime _ _ _ hi, BitVec.getLsbD_and,
    BitVec.getLsbD_and, getLsbD_low7 i hi, getLsbD_timeKeep i hi]
  by_cases h : i < 7
  · simp [h, show ¬ 7 ≤ i by omega]
  · simp [h, show 7 ≤ i by omega]

theorem encFrame_spill (w : ScheduleWord) (v : Operand) :
    encFrame w v =
      encFrame w (v &&& 0x1F#16) ||| (((v >>> 5) &&& 0xF#16) <<< 12) := by
  refine BitVec.eq_of_getLsbD_eq fun i hi => ?_
  rw [BitVec.getLsbD_or, getLsbD_encFrame _ _ _ hi, getLsbD_encFrame _ _ _ hi, BitVec.getLsbD_and,
    BitVec.getLsbD_shiftLeft, BitVec.getLsbD_and, BitVec.getLsbD_ushiftRight,
    getLsbD_low5 (i - 7) (by omega), getLsbD_low4 (i - 12) (by omega)]
  by_cases h : i < 12
  · simp [h, show i - 7 < 5 by omega]
  · simp [h, hi, show ¬ i < 7 by omega, show ¬ i - 7 < 5 by omega, show i - 12 < 4 by omega,
      show 5 + (i - 12) = i - 7 by omega]

theorem encPeriod_spill (w : ScheduleWord) (v : Operand) :
    encPeriod w v = encPeriod w (v &&& 0xF#16) := by
  refine BitVec.eq_of_getLsbD_eq fun i hi => ?_
  rw [getLsbD_encPeriod _ _ _ hi, getLsbD_encPeriod _ _ _ hi, BitVec.getLsbD_and,
    getLsbD_low4 (i - 12) (by omega)]
  simp [show i - 12 < 4 by omega]

/-- Settles O16: field by field, bit by bit. -/
theorem outOfRangeBitsSpillUpwardsOnly : Obligations.OutOfRangeBitsSpillUpwardsOnly :=
  fun w v => ⟨encTime_spill w v, encFrame_spill w v, encPeriod_spill w v⟩

/-! ### The registered word (R109) -/

/-- The three encodes together overwrite every bit of the starting word. -/
theorem registerWord_of_any_start (start t f p : Operand) :
    registerWord t f p = encPeriod (encFrame (encTime start t) f) p := by
  refine BitVec.eq_of_getLsbD_eq fun i hi => ?_
  rw [registerWord]
  simp only [getLsbD_encPeriod _ _ _ hi, getLsbD_encFrame _ _ _ hi, getLsbD_encTime _ _ _ hi]
  rcases (by omega : i < 7 ∨ (7 ≤ i ∧ i < 12) ∨ 12 ≤ i) with h | h | h
  · simp [show ¬ 7 ≤ i by omega]
  · simp [show ¬ i < 7 by omega, show ¬ 12 ≤ i by omega]
  · simp [show ¬ i < 12 by omega]

/-- Settles O17: the word of the starting word 0 is that of every starting word. -/
theorem registeredWordHoldsOnlyInRangeBits : Obligations.RegisteredWordHoldsOnlyInRangeBits := by
  intro start t f p
  have same := registerWord_of_any_start start t f p
  exact ⟨same ▸ registerWord_eq t f p, same⟩

/-! ### The cycle of the frame advance (41_frame_period.md R122) -/

/-- One frame advance moves the count `n` of advances by one. -/
theorem fadv_counts {s : State} {n : Nat} (frame : s.currentFrame.val = n % 5)
    (period : s.currentPeriod.val = n / 5 % 4) :
    (fadv s).currentFrame.val = (n + 1) % 5 ∧ (fadv s).currentPeriod.val = (n + 1) / 5 % 4 := by
  by_cases last : s.currentFrame.val = 4
  · rw [fadv_of_last last]
    simp only [period, Fin.val_zero]
    omega
  · have notLast : s.currentFrame.val < 4 := by omega
    rw [fadv_of_lt notLast]
    simp only [frame, period]
    omega

/-- Settles O20: by induction on the number of advances. -/
theorem frameAdvanceCyclesThroughTwentyStates :
    Obligations.FrameAdvanceCyclesThroughTwentyStates := by
  intro s n frame period
  induction n with
  | zero => simp [frame, period]
  | succ n ih =>
    rw [Function.iterate_succ_apply']
    exact fadv_counts ih.1 ih.2

end Sys2Proof.Machine

/-! PROOFS. The obligations of 42_dispatcher.md on TICK (R132 to R143), and the TICK before the first PUB
(70_reset_and_hazards.md R234). -/

namespace Sys2Proof.Machine

open Sys2Proof

/-- Settles O21: the three cases of the latch. -/
theorem fireStageRequestsTheLatchedCallback : Obligations.FireStageRequestsTheLatchedCallback :=
  fun _ => ⟨fireStage_none, fireStage_fadv, fun _ other latched => fireStage_some latched other⟩

theorem exec_tick_accepted {s : State} (running : s.fault = false) :
    exec .tick s = .next (dispatchTick s) := by
  rw [exec_tick, unlessHalted_running _ running]

theorem eq_dispatchTick_of_exec {s t : State} (running : s.fault = false)
    (h : exec .tick s = .next t) : t = dispatchTick s := by
  rw [exec_tick_accepted running] at h
  simpa using h.symm

/-! ### The deadline value (R136, R140) -/

theorem doubledSlot_eq (w : ScheduleWord) :
    doubledSlot w = BitVec.ofNat 8 (2 * (timeSlot w).toNat) := by
  rw [← doubledSlot_toNat, BitVec.ofNat_toNat, BitVec.setWidth_eq]

theorem toNat_deadlineValue (w : ScheduleWord) (elapsed : Deadline) :
    (deadlineValue (doubledSlot w) elapsed).toNat =
      255 - (2 * (timeSlot w).toNat + 256 - elapsed.toNat) % 256 := by
  have base : BitVec.toNat Config.dlBase = 255 := rfl
  have := (timeSlot w).isLt
  have := elapsed.isLt
  rw [deadlineValue, BitVec.toNat_sub, BitVec.toNat_sub, base, doubledSlot_toNat]
  omega

theorem deadlineValue_eq (w : ScheduleWord) (elapsed : Deadline) :
    deadlineValue (doubledSlot w) elapsed =
      BitVec.ofNat 8 (255 - (2 * (timeSlot w).toNat + 256 - elapsed.toNat) % 256) := by
  rw [← toNat_deadlineValue, BitVec.ofNat_toNat, BitVec.setWidth_eq]

/-- Settles O26: by whether the distance is negative. -/
theorem deadlineValueArithmetic : Obligations.DeadlineValueArithmetic := by
  intro w elapsed
  have slot := (timeSlot w).isLt
  have bound := elapsed.isLt
  rw [toNat_deadlineValue]
  refine ⟨doubledSlot_toNat w, fun forward => ⟨?_, ?_, ?_⟩, fun wraps => ?_⟩ <;> omega

/-! ### The two outcomes, field by field (R133 to R137) -/

/-- Settles O22: the scan finds the given entry, and DEADLINE and LATCH follow. -/
theorem tickFindsProgramsAndLatches : Obligations.TickFindsProgramsAndLatches := by
  intro s i e running start inside held matching passed
  have found : scan (fireStage s) = .found i e :=
    (scan_found_iff _ i e).2 ⟨start, by simpa using inside, by simpa using held, matching,
      fun j low high => by simpa using passed j low high⟩
  rw [exec_tick_accepted running, dispatchTick_found found, ← deadlineValue_eq, ← doubledSlot_eq]
  simp [respond, emit, latchStage, deadlineStage, writeDeadline]

/-- Settles O23: the scan is exhausted at the given index, and the fault is raised there. -/
theorem exhaustedScanRaisesTheFatalFault : Obligations.ExhaustedScanRaisesTheFatalFault := by
  intro s k running start inside stop passed
  have exhausted : scan (fireStage s) = .exhausted k := by
    refine (scan_exhausted_iff _ ?_ k).2 ⟨start, by simpa using inside, by simpa using stop,
      fun j low high => by simpa using passed j low high⟩
    rw [fireStage_capacity]
    exact Nat.le_trans start inside
  rw [exec_tick_accepted running, dispatchTick_exhausted exhausted]
  simp [raiseFault, respond, emit, Config.scanExhausted]

/-- Settles O25: with nothing latched FIRE changes nothing, and the scan stops where it stands. -/
theorem tickBeforeTheFirstPublishFaults : Obligations.TickBeforeTheFirstPublishFaults := by
  intro s running unlatched bound empty
  have fired := fireStage_none unlatched
  have faults := exhaustedScanRaisesTheFatalFault s s.scanPosition running
    (Nat.le_of_eq (by rw [fired])) bound (.inr (empty _)) (by rw [fired]; omega)
  rwa [fired] at faults

theorem dispatchTick_fault_eq_false_iff {s : State} (running : s.fault = false) :
    (dispatchTick s).fault = false ↔ ∃ i e, scan (fireStage s) = .found i e := by
  rcases dispatchTick_cases s with ⟨i, e, found, h⟩ | ⟨k, exhausted, h⟩ <;> rw [h]
  · simp [running, found]
  · simp [exhausted]

/-- Settles O24: a TICK does not fault exactly when its scan finds an entry, and over a packed table it
finds one exactly when a match lies ahead. -/
theorem tickSucceedsExactlyWhenAMatchLiesAhead :
    Obligations.TickSucceedsExactlyWhenAMatchLiesAhead := by
  intro s t k running size packed h
  rw [eq_dispatchTick_of_exec running h, dispatchTick_fault_eq_false_iff running]
  constructor
  · rintro ⟨i, e, found⟩
    obtain ⟨start, -, held, matching, -⟩ := (scan_found_iff _ i e).1 found
    exact ⟨i, e, start, by simpa using held, matching⟩
  · rintro ⟨i, e, start, held, matching⟩
    have valid : ∀ n, (actRead s n).isSome = true ↔ n < k := packed.isSome_iff
    have below : i < k := (valid i).1 (by simp [held])
    have inside : i < s.capacity.val := size ▸ lt_length_of_actRead held
    obtain ⟨j, e', found, -⟩ := scan_found_of_match_ahead start (by simpa using inside)
      (by simpa using held) matching
      (fun n hn => by simpa using (valid n).2 (Nat.lt_trans hn below))
    exact ⟨j, e', found⟩

/-! ### The events and the latch (R137, R143) -/

/-- A TICK that finds an entry writes one deadline, a TICK that faults writes none. -/
theorem dispatchTick_events {s : State} (running : s.fault = false) :
    ((dispatchTick s).fault = false ∧ ∃ v, (dispatchTick s).deadlineLast = some v ∧
      Adds s (dispatchTick s)
        ((s.latchedTask.map Event.fire).toList ++ [.writeDeadline v, .response (.ok 0)])) ∨
    ((dispatchTick s).fault = true ∧ (dispatchTick s).deadlineLast = s.deadlineLast ∧
      Adds s (dispatchTick s)
        ((s.latchedTask.map Event.fire).toList ++ [.fault 1, .response (.fault 1)])) := by
  rcases dispatchTick_cases s with ⟨i, e, -, h⟩ | ⟨k, -, h⟩ <;> rw [h]
  · exact .inl ⟨by simp [running], _, rfl, by simp [Adds, fireStage_trace]⟩
  · exact .inr ⟨rfl, by simp, by simp [Adds, fireStage_trace, Config.scanExhausted]⟩

/-- Settles O27: the two outcomes of the scan. -/
theorem tickEventsComeInStageOrder : Obligations.TickEventsComeInStageOrder := by
  intro s t running h
  rw [eq_dispatchTick_of_exec running h]
  exact dispatchTick_events running

/-- LATCH keeps the found task, and a fault leaves the latch. -/
theorem dispatchTick_latchedTask (s : State) :
    (s.latchedTask ≠ none → (dispatchTick s).latchedTask ≠ none) ∧
      ((dispatchTick s).fault = false → (dispatchTick s).latchedTask ≠ none) := by
  rcases dispatchTick_cases s with ⟨i, e, -, h⟩ | ⟨k, -, h⟩ <;> rw [h]
  · exact ⟨fun _ => by simp, fun _ => by simp⟩
  · exact ⟨fun latched => by simpa using latched, fun noFault => by simp at noFault⟩

/-- Settles O28: no effect but that of an accepted TICK writes the latch. -/
theorem latchIsNeverEmptiedByACommand : Obligations.LatchIsNeverEmptiedByACommand := by
  intro i s t h
  refine ⟨fun latched => ?_, fun tick running noFault => ?_⟩
  · cases effect_of_exec h with
    | ticked => exact (dispatchTick_latchedTask s).1 latched
    | refused | answered | started | dropped | registered | updated | published => exact latched
  · subst tick
    obtain rfl := eq_dispatchTick_of_exec running h
    exact (dispatchTick_latchedTask s).2 noFault

/-! ### Inside a frame (R140) -/

/-- Over a packed and ascending table the time slots grow with the index. -/
theorem timeSlot_mono {s : State} {k : Nat} (packed : ValidBelow s.active k)
    (sorted : AscendingSlots s) {i j : Nat} {a b : ActiveEntry} (le : i ≤ j)
    (ha : actRead s i = some a) (hb : actRead s j = some b) :
    (timeSlot a.word).toNat ≤ (timeSlot b.word).toNat := by
  induction j, le using Nat.le_induction generalizing b with
  | base =>
    obtain rfl : a = b := by simpa [ha] using hb
    exact Nat.le_refl _
  | succ j le ih =>
    have valid : ∀ n, (actRead s n).isSome = true ↔ n < k := packed.isSome_iff
    have below : j + 1 < k := (valid _).1 (by simp [hb])
    obtain ⟨c, hc⟩ := Option.isSome_iff_exists.1 ((valid j).2 (by omega))
    exact Nat.le_trans (ih hc) (sorted j c b hc hb)

/-- Inside a frame the entry a scan finds has a slot at or behind the elapsed time that FIRE leaves. -/
theorem fireStage_elapsed_le_of_found {s : State} (inv : StateInv s) (cursor : CursorInFrame s)
    {i : Nat} {e : ActiveEntry} (found : scan (fireStage s) = .found i e) :
    (fireStage s).elapsedFrameTime.toNat ≤ (doubledSlot e.word).toNat := by
  obtain ⟨start, -, held, -⟩ := (scan_found_iff _ i e).1 found
  rw [actRead_fireStage] at held
  rw [fireStage_scanPosition] at start
  rw [fireStage_elapsedFrameTime]
  split
  next => simp
  next notLatched =>
    rw [if_neg notLatched] at start
    rcases cursor with latched | ⟨-, elapsed⟩ | ⟨j, a, position, before, elapsed⟩
    · exact absurd latched notLatched
    · simp [elapsed]
    · obtain ⟨k, packed⟩ := inv.activePacked
      have mono := timeSlot_mono packed inv.activeSorted (by omega : j ≤ i) before held
      rw [elapsed, doubledSlot_toNat, doubledSlot_toNat]
      omega

/-- Settles O29: a TICK that succeeds found an entry whose slot is not behind the elapsed time. -/
theorem deadlineNeverWrapsInsideAFrame : Obligations.DeadlineNeverWrapsInsideAFrame := by
  intro s t inv cursor running h noFault
  obtain rfl := eq_dispatchTick_of_exec running h
  obtain ⟨i, e, found⟩ := (dispatchTick_fault_eq_false_iff running).1 noFault
  have forward := fireStage_elapsed_le_of_found inv cursor found
  have slot := (timeSlot e.word).isLt
  have value := toNat_deadlineValue e.word (fireStage s).elapsedFrameTime
  rw [dispatchTick_found found]
  simp only [respond_elapsedFrameTime, latchStage_elapsedFrameTime,
    deadlineStage_elapsedFrameTime, respond_deadlineLast, latchStage_deadlineLast,
    deadlineStage_deadlineLast]
  rw [doubledSlot_toNat] at forward ⊢
  exact ⟨forward, _, rfl, by omega, by omega⟩

theorem cursorInFrame_dispatchTick {s : State} (noFault : (dispatchTick s).fault = false) :
    CursorInFrame (dispatchTick s) := by
  rcases dispatchTick_cases s with ⟨i, e, found, h⟩ | ⟨k, -, h⟩ <;> rw [h] at noFault ⊢
  · obtain ⟨-, -, held, -⟩ := (scan_found_iff _ i e).1 found
    exact .inr (.inr ⟨i, e, rfl, held, rfl⟩)
  · simp at noFault

/-- INIT empties the active table, which is empty before INIT. -/
theorem cursorInFrame_initTables {s : State} (inv : StateInv s) (first : s.initialized = false)
    (cursor : CursorInFrame s) : CursorInFrame (initTables s) := by
  rcases cursor with latched | start | ⟨i, e, -, held, -⟩
  · exact .inl latched
  · exact .inr (.inl start)
  · simp [(inv.beforeInit first).2 i] at held

/-- Every effect but that of PUB keeps the cursor inside a frame. -/
theorem cursorInFrame_effect {i : Instr} {s t : State} (inv : StateInv s)
    (cursor : s.fault = false → CursorInFrame s) (noPub : i ≠ .pub) (h : Effect i s t)
    (noFault : t.fault = false) : CursorInFrame t := by
  cases h with
  | refused | answered | dropped | registered | updated => exact cursor noFault
  | started running first => exact cursorInFrame_initTables inv first (cursor running)
  | published running ready is => exact absurd is noPub
  | ticked running => exact cursorInFrame_dispatchTick noFault

/-- Settles O30: the reset input puts the cursor at the start of a frame, an illegal word leaves it, and
so does every effect of a command but that of PUB. -/
theorem cursorStaysInFrameWithoutPublish : Obligations.CursorStaysInFrameWithoutPublish := by
  intro s t inv cursor h noPub noFault
  rcases step_cases h with ⟨-, rfl⟩ | ⟨rest, -, rfl⟩ | ⟨c, rest, err, -, -, rfl⟩ |
    ⟨c, rest, i, port, decoded, effect⟩
  · exact cursor noFault
  · exact .inr (.inl ⟨rfl, rfl⟩)
  · rw [refuseIllegal_eq] at noFault ⊢
    exact cursor noFault
  · refine cursorInFrame_effect (inv.withPort rest) cursor (fun pub => ?_) effect noFault
    exact noPub c rest port (pub ▸ decoded)

end Sys2Proof.Machine

/-! PROOFS. The obligations on the step and the command port (00_scope.md R15, 30_encoding.md R78, R79,
70_reset_and_hazards.md R230, 10_state.md R33 to R40) and of 60_exceptions.md on refusals, the halted state
and the deadline port (R194, R195, R206). -/

namespace Sys2Proof.Machine

open Sys2Proof

/-! ### One step, by what is presented next -/

/-- Settles O9: a step takes no input from an empty port. -/
theorem stepWithNothingPresentedWaits : Obligations.StepWithNothingPresentedWaits := by
  intro s idle
  rw [step, idle]

theorem step_of_presented {s : State} {input : PortInput} {rest : List PortInput}
    (port : s.port = input :: rest) : step s = takeInput input { s with port := rest } := by
  rw [step, port]

/-- Settles O6: a legal word is performed as the command it decodes to. -/
theorem stepPerformsTheDecodedCommand : Obligations.StepPerformsTheDecodedCommand := by
  intro s c rest i port decoded
  rw [step_of_presented port, takeInput, perform, decoded]

/-- Settles O7: an illegal word is refused. -/
theorem stepRefusesIllegalWords : Obligations.StepRefusesIllegalWords := by
  intro s c rest err port illegal
  rw [step_of_presented port, takeInput, perform, illegal]
  simp only [refuseIllegal_eq]
  rfl

/-- Settles O8: the reset input keeps only the capacity and the port. -/
theorem resetInputRestoresTheResetState : Obligations.ResetInputRestoresTheResetState := by
  intro s rest port
  rw [step_of_presented port, takeInput, hardReset]

/-- Settles O10: with no input the state, after a reset its state, and after a command word that of its
execution or its refusal. -/
theorem everyStepHasANextState : Obligations.EveryStepHasANextState := by
  intro s
  rcases port : s.port with _ | ⟨_ | _, rest⟩
  · exact ⟨s, stepWithNothingPresentedWaits s port⟩
  case cons.command c =>
    rcases decoded : decode c with err | i
    · exact ⟨_, stepRefusesIllegalWords s c rest err port decoded⟩
    · obtain ⟨t, next, -⟩ := exec_effect i { s with port := rest }
      exact ⟨t, (stepPerformsTheDecodedCommand s c rest i port decoded).trans next⟩
  case cons.rst => exact ⟨_, resetInputRestoresTheResetState s rest port⟩

/-- Settles O11: the reset values, both tables read slot by slot. -/
theorem resetValuesOfEveryRegister : Obligations.ResetValuesOfEveryRegister := by
  intro n
  simp [actRead, stgRead]

/-- Settles O12: the frame fits in 3 bits and the period in 2. -/
theorem statusOutputsShowTheState : Obligations.StatusOutputsShowTheState := by
  intro s
  have frame := s.currentFrame.isLt
  have period := s.currentPeriod.isLt
  refine ⟨?_, ?_, rfl, rfl, rfl⟩ <;> rw [statusOutputs, BitVec.toNat_ofNat] <;> omega

/-! ### What a command adds to the trace -/

/-- A refused command adds its response and nothing else; any other command adds events that are no
responses, then one response that is no refusal (30_encoding.md R78, 60_exceptions.md R194). -/
theorem effect_response {i : Instr} {s t : State} (h : Effect i s t) :
    (∃ reason, t = refuse reason s) ∨
    ∃ evs r, Adds s t (evs ++ [.response r]) ∧ (∀ e ∈ evs, responseOf e = none) ∧
      ∀ reason, r ≠ .refused reason := by
  cases h with
  | refused reason => exact .inl ⟨reason, rfl⟩
  | answered | started | dropped | registered | updated =>
    exact .inr ⟨[], _, rfl, by simp, by simp⟩
  | published =>
    exact .inr ⟨[.maskTick, .unmaskTick], .ok 0, by rw [publish_eq]; rfl, by simp [responseOf],
      by simp⟩
  | ticked running =>
    rcases dispatchTick_events running with ⟨-, v, -, adds⟩ | ⟨-, -, adds⟩
    · refine .inr ⟨(s.latchedTask.map Event.fire).toList ++ [.writeDeadline v], .ok 0,
        by simpa [Adds] using adds, by simp [responseOf, or_imp, forall_and], by simp⟩
    · refine .inr ⟨(s.latchedTask.map Event.fire).toList ++ [.fault 1], .fault 1,
        by simpa [Adds] using adds, by simp [responseOf, or_imp, forall_and], by simp⟩

/-- Settles O49: the response a command adds is its last event, and the events before it are none. -/
theorem everyCommandGetsExactlyOneResponse : Obligations.EveryCommandGetsExactlyOneResponse := by
  intro i s t h
  rcases effect_response (effect_of_exec h) with ⟨reason, rfl⟩ | ⟨evs, r, adds, silent, -⟩
  · exact ⟨[], .refused reason, rfl, by simp⟩
  · exact ⟨evs, r, adds, silent⟩

/-- Settles O50: a command whose last event is a refusal is one that was refused. -/
theorem refusedCommandsChangeNoState : Obligations.RefusedCommandsChangeNoState := by
  intro i s t before reason h adds
  rcases effect_response (effect_of_exec h) with ⟨reason', rfl⟩ | ⟨evs, r, adds', -, accepted⟩
  · have same : reason' = reason := by
      have last := congrArg List.getLast? adds
      simpa [← List.append_assoc] using last
    rw [same]
    rfl
  · have last := congrArg List.getLast? (adds'.symm.trans adds)
    simp [← List.append_assoc, accepted] at last

/-! ### The halted state (R195) -/

theorem effect_of_halted {i : Instr} {s t : State} (halted : s.fault = true) (h : Effect i s t) :
    t = refuse .halted s := by
  cases h with
  | refused reason why =>
    rcases why with ⟨rfl, -⟩ | ⟨-, running, -⟩ | ⟨-, running, -⟩
    · rfl
    all_goals simp [halted] at running
  | answered _ running | started running | dropped running | registered _ _ _ _ _ running
  | updated _ _ _ _ _ running | published running | ticked running =>
    simp [halted] at running

theorem exec_halted (i : Instr) {s : State} (halted : s.fault = true) :
    exec i s = .next (refuse .halted s) := by
  obtain ⟨t, next, effect⟩ := exec_effect i s
  rw [next, effect_of_halted halted effect]

theorem refuse_silent (reason : RefusalReason) (s : State) :
    ∃ evs, Adds s (refuse reason s) evs ∧
      ∀ e ∈ evs, fireStrobe e = none ∧ deadlineStrobe e = none :=
  ⟨[.response (.refused reason)], rfl, by simp [fireStrobe, deadlineStrobe]⟩

/-- Settles O47: while halted every command and every illegal word is refused, and the reset input clears
the fault. -/
theorem haltedUntilReset : Obligations.HaltedUntilReset := by
  refine ⟨fun i s halted => exec_halted i halted, fun s t halted h => ?_⟩
  rcases step_cases h with ⟨-, rfl⟩ | ⟨rest, port, rfl⟩ | ⟨c, rest, err, -, -, rfl⟩ |
    ⟨c, rest, i, -, -, effect⟩
  · exact .inr ⟨halted, [], by simp, by simp⟩
  · exact .inl ⟨rest, port, rfl⟩
  · rw [refuseIllegal_eq]
    exact .inr ⟨halted, refuse_silent _ s⟩
  · rw [effect_of_halted (by exact halted) effect]
    exact .inr ⟨halted, refuse_silent _ s⟩

/-! ### Commands out of sequence (R194) -/

theorem exec_unstarted {i : Instr} {s : State} (running : s.fault = false)
    (unready : s.initialized = false)
    (needsInit : (∃ t f p cb, i = .reg t f p cb) ∨
      (∃ h v, i = .sett h v ∨ i = .setf h v ∨ i = .setp h v) ∨ i = .pub) :
    exec i s = .next (refuse .badSequence s) := by
  have refused (k : State → State) : unlessHalted (afterInit k) s = refuse .badSequence s := by
    rw [unlessHalted_running _ running, afterInit_unstarted _ unready]
  rcases needsInit with ⟨t, f, p, cb, rfl⟩ | ⟨h, v, setter⟩ | rfl
  · rw [exec_reg, refused]
  · obtain ⟨enc, he⟩ := setterEnc_handle_of_setter setter
    rw [exec_of_setterEnc he, refused]
  · rw [exec_pub, refused]

/-- Only the commands that INIT must precede, and INIT itself, are refused for their sequence. -/
theorem effect_no_badSequence {i : Instr} {s t : State} (running : s.fault = false)
    (other : i = .tick ∨ i.isCodec = true) (h : Effect i s t) :
    ∃ evs, Adds s t evs ∧ .response (.refused .badSequence) ∉ evs := by
  cases h with
  | refused reason why =>
    rcases why with ⟨-, halted⟩ | ⟨-, -, noCodec, noTick⟩ | ⟨rfl, -⟩
    · simp [running] at halted
    · simp [noCodec, noTick] at other
    · exact ⟨[_], rfl, by simp⟩
  | answered | dropped | registered | updated | started => exact ⟨[_], rfl, by simp⟩
  | published => exact ⟨[.maskTick, .unmaskTick, .response (.ok 0)], by rw [publish_eq], by simp⟩
  | ticked =>
    rcases dispatchTick_events running with ⟨-, v, -, adds⟩ | ⟨-, -, adds⟩
    all_goals exact ⟨_, adds, by simp⟩

/-- Settles O48: a second INIT, the commands that need INIT before it, and the commands that do not. -/
theorem commandsOutOfSequenceAreRefused : Obligations.CommandsOutOfSequenceAreRefused := by
  intro s running
  refine ⟨fun ready => ?_, fun unready i needsInit => exec_unstarted running unready needsInit,
    fun i t other h evs adds => ?_⟩
  · rw [exec_init, unlessHalted_running _ running, beforeInit_started _ ready]
    rfl
  · obtain ⟨evs', adds', absent⟩ := effect_no_badSequence running other (effect_of_exec h)
    obtain rfl : evs' = evs := List.append_cancel_left (adds'.symm.trans adds)
    exact absent

/-! ### The trace and the deadline port (10_state.md R33, 60_exceptions.md R206) -/

theorem adds_of_effect {i : Instr} {s t : State} (h : Effect i s t) : ∃ evs, Adds s t evs := by
  rcases effect_response h with ⟨reason, rfl⟩ | ⟨evs, r, adds, -⟩
  · exact ⟨_, rfl⟩
  · exact ⟨_, adds⟩

/-- A trace that grew to a clean one was clean. -/
theorem clean_of_adds {s t : State} {evs : List Event} (adds : Adds s t evs) (clean : State.Clean t) :
    State.Clean s :=
  fun e he => clean e (by rw [adds]; exact List.mem_append_left _ he)

/-- Settles O51: every input but the reset input only adds events. -/
theorem traceOnlyGrowsUntilReset : Obligations.TraceOnlyGrowsUntilReset := by
  intro s t h
  have grows : ∀ evs, Adds s t evs →
      (∃ evs, Adds s t evs) ∧ (State.Clean t → State.Clean s) :=
    fun evs adds => ⟨⟨evs, adds⟩, clean_of_adds adds⟩
  rcases step_cases h with ⟨-, rfl⟩ | ⟨rest, port, rfl⟩ | ⟨c, rest, err, -, -, rfl⟩ |
    ⟨c, rest, i, -, -, effect⟩
  · exact .inr (grows [] (by simp))
  · exact .inl ⟨rest, port, rfl⟩
  · rw [refuseIllegal_eq] at grows ⊢
    exact .inr (grows _ rfl)
  · obtain ⟨evs, adds⟩ := adds_of_effect effect
    exact .inr (grows evs adds)

/-- A command that is no accepted TICK writes no deadline. -/
theorem effect_no_deadline {i : Instr} {s t : State} (noTick : ¬ (i = .tick ∧ s.fault = false))
    (h : Effect i s t) :
    ∃ evs, Adds s t evs ∧ t.deadlineLast = s.deadlineLast ∧ evs.filterMap deadlineStrobe = [] := by
  cases h with
  | refused | answered | started | dropped | registered | updated => exact ⟨[_], rfl, rfl, rfl⟩
  | published =>
    exact ⟨[.maskTick, .unmaskTick, .response (.ok 0)], by rw [publish_eq], rfl, rfl⟩
  | ticked running is => exact absurd ⟨is, running⟩ noTick

/-- Settles O52: an accepted TICK by its two outcomes, any other command by its effect. -/
theorem onlyASuccessfulTickWritesTheDeadline : Obligations.OnlyASuccessfulTickWritesTheDeadline := by
  intro i s t h
  by_cases tick : i = .tick ∧ s.fault = false
  · obtain ⟨rfl, running⟩ := tick
    obtain rfl := eq_dispatchTick_of_exec running h
    rcases dispatchTick_events running with ⟨noFault, v, last, adds⟩ | ⟨fault, last, adds⟩
    · refine ⟨_, adds, ?_⟩
      rw [if_pos ⟨rfl, running, noFault⟩]
      exact ⟨v, last, by rw [List.filterMap_append, filterMap_fire]; rfl⟩
    · refine ⟨_, adds, ?_⟩
      rw [if_neg (by simp [fault])]
      exact ⟨last, by rw [List.filterMap_append, filterMap_fire]; rfl⟩
  · obtain ⟨evs, adds, unchanged⟩ := effect_no_deadline tick (effect_of_exec h)
    refine ⟨evs, adds, ?_⟩
    rw [if_neg fun ⟨is, running, _⟩ => tick ⟨is, running⟩]
    exact unchanged

end Sys2Proof.Machine

/-! PROOFS. The obligations of 20_memory.md on the two contexts (R56, R61) and of 60_exceptions.md R201: what
each writes and reads, and that a TICK commutes with the staging writes. -/

namespace Sys2Proof.Machine

open Sys2Proof

/-! ### What each command writes (20_memory.md R56) -/

theorem agent_eq_dispatcher_iff (i : Instr) : i.agent = .dispatcher ↔ i = .tick := by
  cases i <;> simp [Instr.agent]

theorem agent_eq_mutator_iff (i : Instr) : i.agent = .mutator ↔ i ≠ .tick := by
  cases i <;> simp [Instr.agent]

theorem effect_environment {i : Instr} {s t : State} (h : Effect i s t) : SameEnvironment s t := by
  cases h with
  | refused | answered | started | dropped | registered | updated | published => exact ⟨rfl, rfl⟩
  | ticked =>
    obtain ⟨-, -, -, -, -, capacity, port⟩ := dispatchTick_frame s
    exact ⟨capacity, port⟩

theorem effect_mutator_frame {i : Instr} {s t : State} (noTick : i ≠ .tick) (h : Effect i s t) :
    SameCursor s t ∧ SameFault s t ∧ t.deadlineLast = s.deadlineLast := by
  cases h with
  | refused | answered | started | dropped | registered | updated =>
    exact ⟨⟨rfl, rfl, rfl, rfl, rfl⟩, ⟨rfl, rfl⟩, rfl⟩
  | published =>
    rw [publish_eq]
    exact ⟨⟨rfl, rfl, rfl, rfl, rfl⟩, ⟨rfl, rfl⟩, rfl⟩
  | ticked running is => exact absurd is noTick

theorem effect_active_frame {i : Instr} {s t : State} (noPub : i ≠ .pub) (noInit : i ≠ .init)
    (h : Effect i s t) : SameActive s t := by
  cases h with
  | refused | answered | dropped | registered | updated => exact ⟨rfl, fun _ => rfl⟩
  | ticked =>
    obtain ⟨active, -⟩ := dispatchTick_frame s
    exact ⟨by rw [active], actRead_congr active⟩
  | started running first is => exact absurd is noInit
  | published running ready is => exact absurd is noPub

theorem effect_tickMask {i : Instr} {s t : State} (noPub : i ≠ .pub) (h : Effect i s t) :
    t.tickMask = s.tickMask := by
  cases h with
  | refused | answered | started | dropped | registered | updated => rfl
  | ticked =>
    obtain ⟨-, -, -, -, mask, -⟩ := dispatchTick_frame s
    exact mask
  | published running ready is => exact absurd is noPub

theorem exec_tick_frame {s t : State} (h : exec .tick s = .next t) :
    mutatorHalf t = mutatorHalf s := by
  rcases Bool.eq_false_or_eq_true s.fault with halted | running
  · rw [exec_halted _ halted] at h
    cases h
    rfl
  · obtain rfl := eq_dispatchTick_of_exec running h
    obtain ⟨-, staging, handle, init, -⟩ := dispatchTick_frame s
    exact (mutatorHalf_eq_iff _ _).2 ⟨staging, handle, init⟩

/-- A codec command answers, behind the halted check. -/
theorem exec_of_isCodec {i : Instr} (codec : i.isCodec = true) (s : State) :
    ∃ r, exec i s = .next (answer r s) := by
  cases i with
  | enct | encf | encp | dect | decf | decp => exact ⟨_, rfl⟩
  | init | reg | sett | setf | setp | pub | tick => simp [Instr.isCodec] at codec

theorem answer_eq (r : BitVec 16) (s : State) :
    ∃ r', answer r s = { s with trace := s.trace ++ [.response r'] } := by
  rw [answer, unlessHalted]
  split <;> exact ⟨_, rfl⟩

/-- Settles O42: clause by clause, from the effects of the commands. -/
theorem eachContextWritesOnlyItsOwnHalf : Obligations.EachContextWritesOnlyItsOwnHalf := by
  intro i s t h
  have effect := effect_of_exec h
  refine ⟨effect_environment effect,
    fun mutator => effect_mutator_frame ((agent_eq_mutator_iff i).1 mutator) effect,
    fun noPub noInit => effect_active_frame noPub noInit effect,
    fun noPub => effect_tickMask noPub effect, fun dispatcher => ?_, fun codec => ?_⟩
  · rw [(agent_eq_dispatcher_iff i).1 dispatcher] at h
    obtain ⟨staging, handle, init⟩ := (mutatorHalf_eq_iff _ _).1 (exec_tick_frame h)
    exact ⟨⟨by rw [staging], fun n _ => stgRead_congr staging n⟩, handle, init⟩
  · obtain ⟨r, answered⟩ := exec_of_isCodec codec s
    obtain ⟨r', hr⟩ := answer_eq r s
    rw [answered, hr] at h
    exact ⟨r', by simpa using h.symm⟩

/-! ### What TICK reads (20_memory.md R56) -/

theorem scan_congr {s t : State} (half : dispatcherHalf s = dispatcherHalf t) : scan s = scan t := by
  obtain ⟨frame, period, position, -, -, active, -, -, capacity⟩ :=
    (dispatcherHalf_eq_iff s t).1 half
  have loop : ∀ fuel i, scanLoop s fuel i = scanLoop t fuel i := by
    intro fuel
    induction fuel with
    | zero => exact fun _ => rfl
    | succ fuel ih =>
      intro i
      rw [scanLoop, scanLoop, actRead_congr active]
      simp only [matchesNow_congr frame period, ih]
  rw [scan, scan, position, capacity, loop]

theorem dispatcherHalf_fireStage_congr {s t : State} (half : dispatcherHalf s = dispatcherHalf t) :
    dispatcherHalf (fireStage s) = dispatcherHalf (fireStage t) := by
  obtain ⟨frame, period, position, elapsed, latched, active, fault, code, capacity⟩ :=
    (dispatcherHalf_eq_iff s t).1 half
  obtain ⟨frame', period'⟩ : (fireStage s).currentFrame = (fireStage t).currentFrame ∧
      (fireStage s).currentPeriod = (fireStage t).currentPeriod :=
    Prod.mk.inj (by rw [fireStage_framePeriod, fireStage_framePeriod, frame, period, latched])
  rw [dispatcherHalf_eq_iff]
  simp [fireStage_scanPosition, fireStage_elapsedFrameTime, *]

/-- The four stages read and write the dispatcher half only. -/
theorem dispatchTick_congr {s t : State} (half : dispatcherHalf s = dispatcherHalf t) :
    dispatcherHalf (dispatchTick s) = dispatcherHalf (dispatchTick t) ∧
      ∃ evs, Adds s (dispatchTick s) evs ∧ Adds t (dispatchTick t) evs := by
  have fired := dispatcherHalf_fireStage_congr half
  have sameScan := scan_congr fired
  obtain ⟨frame, period, -, elapsed, latched, active, fault, code, capacity⟩ :=
    (dispatcherHalf_eq_iff _ _).1 fired
  rw [fireStage_latchedTask, fireStage_latchedTask] at latched
  rcases found : scan (fireStage t) with ⟨i, e⟩ | k
  · rw [dispatchTick_found (sameScan.trans found), dispatchTick_found found]
    refine ⟨?_, (s.latchedTask.map Event.fire).toList ++ [.writeDeadline (deadlineValue
      (doubledSlot e.word) (fireStage s).elapsedFrameTime), .response (.ok 0)], ?_, ?_⟩
    · simp only [dispatcherHalf_eq_iff]
      exact ⟨frame, period, rfl, rfl, rfl, active, fault, code, capacity⟩
    · simp [Adds, fireStage_trace]
    · simp [Adds, fireStage_trace, latched, elapsed]
  · rw [dispatchTick_exhausted (sameScan.trans found), dispatchTick_exhausted found]
    refine ⟨?_, (s.latchedTask.map Event.fire).toList ++ [.fault Config.scanExhausted,
      .response (.fault Config.scanExhausted)], ?_, ?_⟩
    · simp only [dispatcherHalf_eq_iff]
      exact ⟨frame, period, rfl, elapsed, by simpa using latched, active, rfl, rfl, capacity⟩
    · simp [Adds, fireStage_trace]
    · simp [Adds, fireStage_trace, latched]

/-- Settles O43: both TICKs are refused as halted, or both run their stages. -/
theorem tickDependsOnTheDispatcherHalfOnly : Obligations.TickDependsOnTheDispatcherHalfOnly := by
  intro s₁ s₂ t₁ t₂ half h₁ h₂
  have sameFault : s₁.fault = s₂.fault := congrArg DispatcherHalf.fault half
  rcases Bool.eq_false_or_eq_true s₁.fault with halted | running
  · rw [exec_halted _ halted] at h₁
    rw [exec_halted _ (sameFault ▸ halted)] at h₂
    cases h₁
    cases h₂
    exact ⟨half, _, rfl, rfl⟩
  · obtain rfl := eq_dispatchTick_of_exec running h₁
    obtain rfl := eq_dispatchTick_of_exec (sameFault ▸ running) h₂
    exact dispatchTick_congr half

/-! ### What a mutator command reads (20_memory.md R56, 60_exceptions.md R201) -/

/-- The operation reads, of the block, the mutator half, the fault flag and the capacity only: in states
that agree on them it leaves the same mutator half and adds the same events. -/
def ReadsMutatorHalf (k : State → State) : Prop :=
  ∀ s t : State, mutatorHalf s = mutatorHalf t → s.fault = t.fault → s.capacity = t.capacity →
    mutatorHalf (k s) = mutatorHalf (k t) ∧ ∃ evs, Adds s (k s) evs ∧ Adds t (k t) evs

namespace ReadsMutatorHalf

theorem respond (r : Response) : ReadsMutatorHalf (Machine.respond r) :=
  fun _ _ half _ _ => ⟨half, _, rfl, rfl⟩

theorem unlessHalted {k : State → State} (hk : ReadsMutatorHalf k) :
    ReadsMutatorHalf (Machine.unlessHalted k) := by
  intro s t half fault capacity
  rw [Machine.unlessHalted, Machine.unlessHalted, ← fault]
  split
  · exact respond _ s t half fault capacity
  · exact hk s t half fault capacity

theorem afterInit {k : State → State} (hk : ReadsMutatorHalf k) :
    ReadsMutatorHalf (Machine.afterInit k) := by
  intro s t half fault capacity
  rw [Machine.afterInit, Machine.afterInit, ← ((mutatorHalf_eq_iff s t).1 half).2.2]
  split
  · exact hk s t half fault capacity
  · exact respond _ s t half fault capacity

theorem initTables : ReadsMutatorHalf (beforeInit Machine.initTables) := by
  intro s t half fault capacity
  rw [beforeInit, beforeInit, ← ((mutatorHalf_eq_iff s t).1 half).2.2]
  split
  · exact respond _ s t half fault capacity
  · refine ⟨?_, [.response (.ok 0)], rfl, rfl⟩
    simp [initTables_eq, mutatorHalf, capacity]

theorem register (tm f p : Operand) (cb : CallbackId) :
    ReadsMutatorHalf (Machine.register tm f p cb) := by
  intro s t half fault capacity
  obtain ⟨staging, handle, init⟩ := (mutatorHalf_eq_iff s t).1 half
  have sameSlot : firstEmptySlot s = firstEmptySlot t := by
    rw [firstEmptySlot, firstEmptySlot, staging]
  rw [Machine.register, Machine.register, ← sameSlot]
  split
  · exact respond _ s t half fault capacity
  · rw [handle]
    refine ⟨?_, _, rfl, rfl⟩
    simp [mutatorHalf, staging, init]

theorem setField (enc : ScheduleWord → Operand → ScheduleWord) (h : TaskHandle) (v : Operand) :
    ReadsMutatorHalf (Machine.setField enc h v) := by
  intro s t half fault capacity
  obtain ⟨staging, handle, init⟩ := (mutatorHalf_eq_iff s t).1 half
  have sameSlot : lookupHandle s h = lookupHandle t h := by
    rw [lookupHandle, lookupHandle, staging]
  rcases setField_cases enc h v s with ⟨unknown, hs⟩ | ⟨j, e, found, held, -, hs⟩ <;>
    rcases setField_cases enc h v t with ⟨unknown', ht⟩ | ⟨j', e', found', held', -, ht⟩ <;>
    rw [hs, ht]
  · exact respond _ s t half fault capacity
  · simp [← sameSlot, unknown] at found'
  · simp [← sameSlot, found] at unknown'
  · obtain rfl : j = j' := by simpa [← sameSlot, found] using found'
    obtain rfl : e = e' := by simpa [← stgRead_congr staging, held] using held'
    refine ⟨?_, _, rfl, rfl⟩
    simp [mutatorHalf, staging, handle, init]

theorem publish : ReadsMutatorHalf Machine.publish := by
  intro s t half fault capacity
  obtain ⟨staging, handle, init⟩ := (mutatorHalf_eq_iff s t).1 half
  rw [publish_eq, publish_eq]
  refine ⟨?_, _, rfl, rfl⟩
  simp [mutatorHalf, staging, handle, init]

end ReadsMutatorHalf

/-- Every mutator command is an operation that reads the mutator half. -/
theorem exec_readsMutatorHalf {i : Instr} (mutator : i.agent = .mutator) :
    ∃ k, ReadsMutatorHalf k ∧ ∀ s, exec i s = .next (k s) := by
  cases i with
  | init => exact ⟨_, .unlessHalted .initTables, fun _ => rfl⟩
  | reg t f p cb => exact ⟨_, .unlessHalted (.afterInit (.register t f p cb)), fun _ => rfl⟩
  | sett h v => exact ⟨_, .unlessHalted (.afterInit (.setField encTime h v)), fun _ => rfl⟩
  | setf h v => exact ⟨_, .unlessHalted (.afterInit (.setField encFrame h v)), fun _ => rfl⟩
  | setp h v => exact ⟨_, .unlessHalted (.afterInit (.setField encPeriod h v)), fun _ => rfl⟩
  | pub => exact ⟨_, .unlessHalted (.afterInit .publish), fun _ => rfl⟩
  | enct | encf | encp | dect | decf | decp =>
    exact ⟨_, .unlessHalted (.respond _), fun _ => rfl⟩
  | tick => simp [Instr.agent] at mutator

/-- Two runs of a mutator command that agree on what it reads. -/
theorem exec_mutator_congr {i : Instr} {s₁ s₂ t₁ t₂ : State} (mutator : i.agent = .mutator)
    (half : mutatorHalf s₁ = mutatorHalf s₂) (fault : s₁.fault = s₂.fault)
    (capacity : s₁.capacity = s₂.capacity) (h₁ : exec i s₁ = .next t₁)
    (h₂ : exec i s₂ = .next t₂) :
    mutatorHalf t₁ = mutatorHalf t₂ ∧ ∃ evs, Adds s₁ t₁ evs ∧ Adds s₂ t₂ evs := by
  obtain ⟨k, reads, is⟩ := exec_readsMutatorHalf mutator
  obtain rfl : k s₁ = t₁ := by simpa [is] using h₁
  obtain rfl : k s₂ = t₂ := by simpa [is] using h₂
  exact reads s₁ s₂ half fault capacity

/-- Settles O44: an accepted PUB copies the staging table of its mutator half. -/
theorem mutatorCommandsDependOnTheMutatorHalfOnly :
    Obligations.MutatorCommandsDependOnTheMutatorHalfOnly := by
  intro i s₁ s₂ t₁ t₂ mutator half fault capacity h₁ h₂
  obtain ⟨half', events⟩ := exec_mutator_congr mutator half fault capacity h₁ h₂
  refine ⟨half', events, fun pub running ready => ?_⟩
  obtain ⟨staging, -, init⟩ := (mutatorHalf_eq_iff s₁ s₂).1 half
  subst pub
  rw [exec_pub_accepted running ready, publish_eq] at h₁
  rw [exec_pub_accepted (fault ▸ running) (init ▸ ready), publish_eq] at h₂
  cases h₁
  cases h₂
  simp [staging]

/-! ### A TICK and a staging write in either order (20_memory.md R61) -/

/-- REG and the setters add their response only. -/
theorem exec_stagingWrite_response {i : Instr} {s t : State} (hi : StagingWrite i)
    (h : exec i s = .next t) : ∃ r, Adds s t [.response r] := by
  obtain ⟨-, notInit, notPub, notTick⟩ := hi.ne_other_kinds
  cases effect_of_exec h with
  | refused | answered | dropped | registered | updated => exact ⟨_, rfl⟩
  | started running first is => exact absurd is notInit
  | published running ready is => exact absurd is notPub
  | ticked running is => exact absurd is notTick

/-- Settles O46: the TICK leaves what the command reads, so the command writes the same in either order;
the TICK does not see what the command writes. -/
theorem tickCommutesWithStagingWrites : Obligations.TickCommutesWithStagingWrites := by
  intro i s a ab b ba hi hTick noFault hAfter hBefore hTick'
  obtain ⟨-, -, -, notTick⟩ := StagingWrite.ne_other_kinds hi
  have mutator : i.agent = .mutator := (agent_eq_mutator_iff i).2 notTick
  have tick := effect_of_exec hTick
  have running : s.fault = a.fault := by
    rcases Bool.eq_false_or_eq_true s.fault with halted | running
    · simp [effect_of_halted halted tick, halted] at noFault
    · rw [running, noFault]
  obtain ⟨half, evs', adds, adds'⟩ := exec_mutator_congr mutator (exec_tick_frame hTick).symm running
    (effect_environment tick).1.symm hBefore hAfter
  obtain ⟨r, response⟩ := exec_stagingWrite_response hi hBefore
  obtain rfl : evs' = [.response r] := List.append_cancel_left (adds.symm.trans response)
  obtain ⟨st, nh, tr, rfl⟩ := exec_stagingWrite_frame hi hBefore
  obtain ⟨st', nh', tr', rfl⟩ := exec_stagingWrite_frame hi hAfter
  obtain ⟨rfl, rfl, -⟩ : st = st' ∧ nh = nh' ∧ _ := (mutatorHalf_eq_iff _ _).1 half
  obtain ⟨a', evs, next, tickAdds, unseen⟩ := exec_tick_withStaging s
  obtain rfl : a' = a := by simpa [next] using hTick
  obtain rfl : _ = ba := by simpa [unseen] using hTick'
  refine ⟨rfl, ?_, evs, r, tickAdds, adds', adds, rfl⟩
  have inOneOrder : tr' = s.trace ++ (evs ++ [.response r]) := by
    rw [← List.append_assoc, ← tickAdds]
    exact adds'
  have inTheOther : tr ++ evs = s.trace ++ ([.response r] ++ evs) := by
    rw [← List.append_assoc, ← adds]
  exact inOneOrder ▸ inTheOther ▸ List.perm_append_comm.append_left s.trace

end Sys2Proof.Machine
